-- ==== Sys2Proof/Word.lean ====
section
/-!
DEFINITION. The words of the block and the raw records it is handed: bytes, halves, words (R9, R10, R11), the two access
widths, a bus value of one of them, the transaction descriptor `(op, addr, arg)` of R80, and what a caller presents.
-/

namespace Sys2Proof

/-- One byte. -/
abbrev Byte := BitVec 8

/-- A Half, 16 bits (R10). -/
abbrev Half := BitVec 16

/-- A Word, 32 bits: every register and every physical address (R9, R11). -/
abbrev Word := BitVec 32

/-- The access widths: exactly two (R10). Byte has no constructor, so it cannot be expressed (U1, C7). -/
inductive Width where
  | half
  | word
  deriving DecidableEq, Repr

/-- A value of one of the two widths (R110). It carries its width. -/
inductive BusValue where
  | half (v : Half)
  | word (v : Word)
  deriving DecidableEq, Repr

/-- The `arg` of a transaction descriptor: "u32 or Nat or bytes" (R80), or unused (the `-` of 95_test_vectors.md). -/
inductive Arg where
  | unused
  | word (v : Word)
  | cycles (n : Nat)
  | bytes (p : List Byte)
  deriving DecidableEq, Repr

/-- A transaction descriptor `(op : u8, addr : u32, arg)` (R80). Where an `op` takes no address, or no `arg`, the decoder
does not look at that part (entry 13). -/
structure Descriptor where
  op : Byte
  addr : Word
  arg : Arg
  deriving DecidableEq, Repr

/-- What a caller presents to the block, in its encoded form: a transaction descriptor (R80 to R83), or a command word
written to the command register (R85; entry 2). -/
inductive Presented where
  | descriptor (d : Descriptor)
  | command (v : Word)
  deriving DecidableEq, Repr

end Sys2Proof
end

