-- ==== Sys2Proof/Config.lean ====
section
/-!
DEFINITION. What is fixed for a run (R9, R40): the window table, the presence flags, the sizes, the codes and the cycle
figures; the names of windows, devices, commands and header types; and the free values, opaque constants with no body.
-/

namespace Sys2Proof

/-- The rows of the window table, in its order (R51). -/
inductive WindowId where
  | low
  | ddC2s
  | ddDs
  | ddCtrl
  | ddMs
  | gap1
  | ddIpl
  | gap2
  | cartSave
  | cartRom
  | viewer
  | cfg
  | rest
  deriving DecidableEq, Repr

/-- The devices an address can be mapped to (R53). -/
inductive Device where
  | ddC2s
  | ddDs
  | ddCtrl
  | ddMs
  | ddIpl
  | saveRam
  | saveFlash
  | rom
  | viewer
  | cfg
  deriving DecidableEq, Repr

/-- The answer of the address decoder (R53). -/
inductive Target where
  | unmapped
  | mapped (dev : Device) (off : Nat)
  deriving DecidableEq, Repr

/-- The closed command type, with its Unrecognized constructor (R180). -/
inductive Command where
  | txReady
  | rxReady
  | txData
  | txDataLegacy
  | rxData
  | rxDataLegacy
  | rxBusy
  | config
  | unrecognized
  deriving DecidableEq, Repr

/-- The four network requests a transmit's header type selects (R87). -/
inductive HeaderType where
  | connect
  | server
  | send
  | text
  deriving DecidableEq, Repr

/-- The window table's boundaries (R51): the low end of every row after LOW, which begins at 0. A row ends one below the
next row's low end, CFG is the 16 bytes from `cfgBase`, and REST is what is left, so the rows stand in R51's order and
cover the space without gap or overlap (entry 14). -/
structure WindowTable where
  ddC2s : Nat
  ddDs : Nat
  ddCtrl : Nat
  ddMs : Nat
  gap1 : Nat
  ddIpl : Nat
  gap2 : Nat
  cartSave : Nat
  cartRom : Nat
  viewer : Nat
  /-- CFG_BASE (R9). -/
  cfgBase : Nat
  deriving DecidableEq, Repr

/-- The command codes CMD_* (R85). -/
structure CommandCodes where
  txReady : Byte
  rxReady : Byte
  txData : Byte
  txDataLegacy : Byte
  rxData : Byte
  rxDataLegacy : Byte
  rxBusy : Byte
  config : Byte
  deriving DecidableEq, Repr

/-- The eight command codes as a list. -/
def CommandCodes.all (c : CommandCodes) : List Byte :=
  [c.txReady, c.rxReady, c.txData, c.txDataLegacy, c.rxData, c.rxDataLegacy, c.rxBusy, c.config]

/-- The transmit header type codes HDR_* (R87). -/
structure HeaderCodes where
  connect : Byte
  server : Byte
  send : Byte
  text : Byte
  deriving DecidableEq, Repr

/-- The four header codes as a list. -/
def HeaderCodes.all (h : HeaderCodes) : List Byte :=
  [h.connect, h.server, h.send, h.text]

/-- The parameters of the step relation (R9, R40). No step changes them. -/
structure Config where
  windows : WindowTable
  ddPresent : Bool
  ramPresent : Bool
  flashPresent : Bool
  romPresent : Bool
  viewerPresent : Bool
  /-- ROM_SIZE, the size in bytes of the cartridge ROM store (D46). -/
  romSize : Nat
  /-- VERSION_MAGIC, OPEN (D28). -/
  versionMagic : Word
  commands : CommandCodes
  headers : HeaderCodes
  /-- LEGACY_SIG (D24). -/
  legacySig : Word
  /-- OPT_SDRAM_WRITABLE (D26). -/
  optSdramWritable : Word
  /-- T_WRITE, the latency of a CPU word write. -/
  tWrite : Nat
  /-- T_READ, the charge of a CPU word read that is not redirected. -/
  tRead : Nat
  /-- T_WCHG, the charge `writeWord` returns. -/
  tWchg : Nat
  /-- DEFAULT_PORT, OPEN; no rule of the block reads it (D32). DESIGN CHOICE: the spec gives it no type and no width (R9, D32,
  U23); 16 bits is the model's choice (entry 21). -/
  defaultPort : Half
  deriving DecidableEq, Repr

/-- The `n`-th draw of the environment's oracle, taken as a Half (R11, R60, R67). A free value: nothing constrains it. -/
opaque Config.drawHalf : Nat → Half

/-- The `n`-th draw of the environment's oracle, taken as a Word (R11, R60, R67). A free value: nothing constrains it. -/
opaque Config.drawWord : Nat → Word

/-- The `n`-th draw of the environment's oracle, taken as a Bool (R11, R212, R213). A free value: nothing constrains it. -/
opaque Config.drawBool : Nat → Bool

/-- The value VERSION_MAGIC has in the default configuration: OPEN (D28), so free. -/
opaque Config.openVersionMagic : Word

/-- The value DEFAULT_PORT has in the default configuration: OPEN (D32), so free; its width is the model's (entry 21). -/
opaque Config.openDefaultPort : Half

end Sys2Proof
end

