-- ==== Sys2Proof/Machine/Parameters.lean ====
section
/-!
DEFINITION. The parameters with a value in the source (R9) and the default configuration: the defaults of R51, R85 and R87
and the common configuration of 95_test_vectors.md (entry 5).
-/

namespace Sys2Proof

/-- STAGE_N, the staging-buffer size in bytes (R9, R32). -/
def stageN : Nat := 512

/-- ERR_BIT, the status bit of a command error (R9, R26). -/
def errBit : Nat := 28

/-- CPUBUSY_BIT, the status bit named CPU-busy (R9, R26). -/
def cpuBusyBit : Nat := 30

/-- RXBUSY_FLAG, the bit of receiveBusy in the receive-ready return word (R9, R90). -/
def rxBusyFlag : Nat := 31

/-- The op bytes of R82 and R83. -/
def opCpuRw : Nat := 0x01
def opCpuWw : Nat := 0x03
def opDmaRh : Nat := 0x04
def opDmaRw : Nat := 0x05
def opDmaWh : Nat := 0x06
def opDmaWw : Nat := 0x07
def opAdvance : Nat := 0x10
def opForceFinish : Nat := 0x11
def opIsBusy : Nat := 0x12
def opLatchedValue : Nat := 0x13
def opReset : Nat := 0x14
def opInbound : Nat := 0x20

/-- The default window boundaries of R51. -/
def WindowTable.standard : WindowTable where
  ddC2s := 0x05000000
  ddDs := 0x05000400
  ddCtrl := 0x05000500
  ddMs := 0x05000580
  gap1 := 0x050005C0
  ddIpl := 0x06000000
  gap2 := 0x06400000
  cartSave := 0x08000000
  cartRom := 0x10000000
  viewer := 0x13FF0000
  cfgBase := 0x14000000

/-- The default command codes of R85. -/
def CommandCodes.standard : CommandCodes where
  txReady := 0x54#8
  rxReady := 0x52#8
  txData := 0x73#8
  txDataLegacy := 0x53#8
  rxData := 0x67#8
  rxDataLegacy := 0x47#8
  rxBusy := 0x42#8
  config := 0x43#8

/-- The default header type codes of R87. -/
def HeaderCodes.standard : HeaderCodes where
  connect := 0x01#8
  server := 0x02#8
  send := 0x03#8
  text := 0x04#8

/-- The default configuration: R9's defaults and the common configuration of 95_test_vectors.md. DESIGN CHOICE (entry 5):
the spec gives ROM_SIZE and the presence flags no default of their own. -/
def Config.standard : Config where
  windows := WindowTable.standard
  ddPresent := false
  ramPresent := false
  flashPresent := false
  romPresent := true
  viewerPresent := false
  romSize := 0x1000
  versionMagic := Config.openVersionMagic
  commands := CommandCodes.standard
  headers := HeaderCodes.standard
  legacySig := 0x41524553#32
  optSdramWritable := 1#32
  tWrite := 400
  tRead := 250
  tWchg := 0
  defaultPort := Config.openDefaultPort

end Sys2Proof
end

