-- ==== Sys2Proof/Syntax.lean ====
section
/-!
DEFINITION. The instructions: one constructor for each row of spec/opcode_table.json (R2). The first twelve are the
transactions of R82 and R83 with their operands; the last nine are the commands of R85, each as the word that is written to
the command register.
-/

namespace Sys2Proof

/-- The transactions and commands the block executes. A recognized command holds the bits 31:8 of its command word, its low
byte being the command's code; `unrecognized` holds its whole word (R85). -/
inductive Instr where
  /-- CPU_RW: `readWord(addr)` (R141). -/
  | cpuRw (addr : Word)
  /-- CPU_WW: `writeWord(addr, v)` (R142). -/
  | cpuWw (addr v : Word)
  /-- DMA_RH: `busRead<Half>(addr)` (R121). -/
  | dmaRh (addr : Word)
  /-- DMA_RW: `busRead<Word>(addr)` (R122). -/
  | dmaRw (addr : Word)
  /-- DMA_WH: `busWrite<Half>(addr, v)` (R123). -/
  | dmaWh (addr : Word) (v : Half)
  /-- DMA_WW: `busWrite<Word>(addr, v)` (R124). -/
  | dmaWw (addr v : Word)
  /-- ADVANCE: `n` cycles of CPU time elapse (R145). -/
  | advance (n : Nat)
  /-- FORCE_FINISH: `forceFinish() -> cyclesRemaining` (R146). -/
  | forceFinish
  /-- IS_BUSY: `isBusy() -> bool` (R144). -/
  | isBusy
  /-- LATCHED_VALUE: `latchedValue() -> u32` (R144). -/
  | latchedValue
  /-- RESET: system init (R260). -/
  | reset
  /-- INBOUND: the bridge's background loop receives payload `p` (R216). -/
  | inbound (p : List Byte)
  /-- TX_READY, the transmit-ready query (R181). -/
  | txReady (hi : BitVec 24)
  /-- RX_READY, the receive-ready query (R182). -/
  | rxReady (hi : BitVec 24)
  /-- TX_DATA, transmit data, generic variant (R185). -/
  | txData (hi : BitVec 24)
  /-- TX_DATA_LEGACY, transmit data, legacy variant (R186). -/
  | txDataLegacy (hi : BitVec 24)
  /-- RX_DATA, receive data, generic variant (R187). -/
  | rxData (hi : BitVec 24)
  /-- RX_DATA_LEGACY, receive data, legacy variant (R188). -/
  | rxDataLegacy (hi : BitVec 24)
  /-- RX_BUSY, the receive-busy query (R189). -/
  | rxBusy (hi : BitVec 24)
  /-- CONFIG, the configuration update (R190). -/
  | config (hi : BitVec 24)
  /-- UNRECOGNIZED: a command word whose code is none of the eight (R191). -/
  | unrecognized (v : Word)
  deriving DecidableEq, Repr

end Sys2Proof
end

