-- ==== Sys2Proof/WellFormed.lean ====
section
/-!
DEFINITION. Well-formed instructions under a configuration (R91, R217), and well-formed configurations: the constraints the
spec puts on its parameters (R51, R85, R87, R183).
-/

namespace Sys2Proof

/-- The constraints of R51 on the window boundaries: ascending rows, none empty; CFG 16-byte aligned; all inside 2^32. -/
def WindowTable.wf (t : WindowTable) : Bool :=
  decide (0 < t.ddC2s) && decide (t.ddC2s < t.ddDs) && decide (t.ddDs < t.ddCtrl) && decide (t.ddCtrl < t.ddMs) &&
  decide (t.ddMs < t.gap1) && decide (t.gap1 < t.ddIpl) && decide (t.ddIpl < t.gap2) &&
  decide (t.gap2 < t.cartSave) && decide (t.cartSave < t.cartRom) && decide (t.cartRom < t.viewer) &&
  decide (t.viewer < t.cfgBase) && decide (t.cfgBase + 16 < 2 ^ 32) && decide (t.cfgBase % 16 = 0)

/-- The eight codes are pairwise distinct (R85). -/
def CommandCodes.wf (c : CommandCodes) : Bool := decide c.all.Nodup

/-- The four header codes are pairwise distinct (R87). -/
def HeaderCodes.wf (h : HeaderCodes) : Bool := decide h.all.Nodup

/-- ROM_SIZE ≤ CART_ROM.high - CART_ROM.low + 1 (R183). -/
def Config.romFits (c : Config) : Bool := decide (c.romSize ≤ c.windows.viewer - c.windows.cartRom)

/-- A configuration the spec admits. That T_WRITE is not 0 is DEDUCED (entry 16): R24 and R141 have no `pending = some 0`. -/
def Config.wf (c : Config) : Bool :=
  c.windows.wf && c.romFits && c.commands.wf && c.headers.wf && decide (0 < c.tWrite)

/-- An instruction the encoding of 30_encoding.md spells: an inbound payload is at most STAGE_N bytes (R217), and the code
of an unrecognized command word is none of the eight (R85). Every other operand is bounded by its type. -/
def Instr.wf (c : Config) : Instr → Bool
  | .cpuRw _ => true
  | .cpuWw _ _ => true
  | .dmaRh _ => true
  | .dmaRw _ => true
  | .dmaWh _ _ => true
  | .dmaWw _ _ => true
  | .advance _ => true
  | .forceFinish => true
  | .isBusy => true
  | .latchedValue => true
  | .reset => true
  | .inbound p => decide (p.length ≤ stageN)
  | .txReady _ => true
  | .rxReady _ => true
  | .txData _ => true
  | .txDataLegacy _ => true
  | .rxData _ => true
  | .rxDataLegacy _ => true
  | .rxBusy _ => true
  | .config _ => true
  | .unrecognized v => !c.commands.all.contains (v.setWidth 8)

end Sys2Proof
end

