-- ==== Sys2Proof/Decode.lean ====
section
/-!
DEFINITION. The decoder, total on everything a caller can present, which rejects by name, and after it the encoder; then the
host's numbering of the opcode table.
-/

namespace Sys2Proof

/-- Why a presented record spells no transaction. -/
inductive DecodeError where
  /-- The op byte is outside the tables of R82 and R83 (U2, U3). -/
  | noSuchOp (op : Byte)
  /-- The op needs a value, a cycle count or a payload, and `arg` holds another kind (R80). -/
  | wrongArg (op : Byte)
  /-- A Half write whose value is no u16 (R123). -/
  | valueTooWide (v : Word)
  /-- An inbound payload longer than STAGE_N (R217). -/
  | payloadTooLong (len : Nat)
  deriving DecidableEq, Repr

/-- The code field of a command word, `v[7:0]` (R85). -/
def codeOf (v : Word) : Byte := v.setWidth 8

/-- Bits 31:8 of a command word: stored, and selecting nothing (R85). -/
def upperOf (v : Word) : BitVec 24 := v.extractLsb' 8 24

/-- The command word with bits 31:8 `hi` and code `code` (R85). -/
def commandWord (hi : BitVec 24) (code : Byte) : Word := hi ++ code

/-- The command a code selects; every code that is none of the eight is the unrecognized command (R85, R180). -/
def commandOf (c : CommandCodes) (code : Byte) : Command :=
  if code = c.txReady then .txReady
  else if code = c.rxReady then .rxReady
  else if code = c.txData then .txData
  else if code = c.txDataLegacy then .txDataLegacy
  else if code = c.rxData then .rxData
  else if code = c.rxDataLegacy then .rxDataLegacy
  else if code = c.rxBusy then .rxBusy
  else if code = c.config then .config
  else .unrecognized

/-- The instruction a command word spells (R85). -/
def decodeCommand (c : Config) (v : Word) : Instr :=
  match commandOf c.commands (codeOf v) with
  | .txReady => .txReady (upperOf v)
  | .rxReady => .rxReady (upperOf v)
  | .txData => .txData (upperOf v)
  | .txDataLegacy => .txDataLegacy (upperOf v)
  | .rxData => .rxData (upperOf v)
  | .rxDataLegacy => .rxDataLegacy (upperOf v)
  | .rxBusy => .rxBusy (upperOf v)
  | .config => .config (upperOf v)
  | .unrecognized => .unrecognized v

/-- CPU_WW takes a u32 value (R82). -/
def decodeCpuWw (d : Descriptor) : Except DecodeError Instr :=
  match d.arg with
  | .word v => .ok (.cpuWw d.addr v)
  | .unused => .error (.wrongArg d.op)
  | .cycles _ => .error (.wrongArg d.op)
  | .bytes _ => .error (.wrongArg d.op)

/-- DMA_WH takes a u16 value (R82, R123). -/
def decodeDmaWh (d : Descriptor) : Except DecodeError Instr :=
  match d.arg with
  | .word v => if v.toNat < 2 ^ 16 then .ok (.dmaWh d.addr (v.setWidth 16)) else .error (.valueTooWide v)
  | .unused => .error (.wrongArg d.op)
  | .cycles _ => .error (.wrongArg d.op)
  | .bytes _ => .error (.wrongArg d.op)

/-- DMA_WW takes a u32 value (R82). -/
def decodeDmaWw (d : Descriptor) : Except DecodeError Instr :=
  match d.arg with
  | .word v => .ok (.dmaWw d.addr v)
  | .unused => .error (.wrongArg d.op)
  | .cycles _ => .error (.wrongArg d.op)
  | .bytes _ => .error (.wrongArg d.op)

/-- ADVANCE takes a cycle count (R83). -/
def decodeAdvance (d : Descriptor) : Except DecodeError Instr :=
  match d.arg with
  | .cycles n => .ok (.advance n)
  | .unused => .error (.wrongArg d.op)
  | .word _ => .error (.wrongArg d.op)
  | .bytes _ => .error (.wrongArg d.op)

/-- INBOUND takes a payload of at most STAGE_N bytes (R83, R216, R217). -/
def decodeInbound (d : Descriptor) : Except DecodeError Instr :=
  match d.arg with
  | .bytes p => if p.length ≤ stageN then .ok (.inbound p) else .error (.payloadTooLong p.length)
  | .unused => .error (.wrongArg d.op)
  | .word _ => .error (.wrongArg d.op)
  | .cycles _ => .error (.wrongArg d.op)

/-- The transaction a descriptor spells (R82, R83); any other op, CPU-class Half among them, is refused. -/
def decodeDescriptor (d : Descriptor) : Except DecodeError Instr :=
  if d.op.toNat = opCpuRw then .ok (.cpuRw d.addr)
  else if d.op.toNat = opCpuWw then decodeCpuWw d
  else if d.op.toNat = opDmaRh then .ok (.dmaRh d.addr)
  else if d.op.toNat = opDmaRw then .ok (.dmaRw d.addr)
  else if d.op.toNat = opDmaWh then decodeDmaWh d
  else if d.op.toNat = opDmaWw then decodeDmaWw d
  else if d.op.toNat = opAdvance then decodeAdvance d
  else if d.op.toNat = opForceFinish then .ok .forceFinish
  else if d.op.toNat = opIsBusy then .ok .isBusy
  else if d.op.toNat = opLatchedValue then .ok .latchedValue
  else if d.op.toNat = opReset then .ok .reset
  else if d.op.toNat = opInbound then decodeInbound d
  else .error (.noSuchOp d.op)

/-- The decoder. -/
def decode (c : Config) : Presented → Except DecodeError Instr
  | .descriptor d => decodeDescriptor d
  | .command v => .ok (decodeCommand c v)

/-- A descriptor of R80 as it is presented. -/
def describe (op : Nat) (addr : Word) (arg : Arg) : Presented :=
  .descriptor { op := BitVec.ofNat 8 op, addr := addr, arg := arg }

/-- The encoder: the descriptor or the command word of an instruction, from the same tables (R82, R83, R85). -/
def encode (c : Config) : Instr → Presented
  | .cpuRw a => describe opCpuRw a .unused
  | .cpuWw a v => describe opCpuWw a (.word v)
  | .dmaRh a => describe opDmaRh a .unused
  | .dmaRw a => describe opDmaRw a .unused
  | .dmaWh a v => describe opDmaWh a (.word (v.setWidth 32))
  | .dmaWw a v => describe opDmaWw a (.word v)
  | .advance n => describe opAdvance 0 (.cycles n)
  | .forceFinish => describe opForceFinish 0 .unused
  | .isBusy => describe opIsBusy 0 .unused
  | .latchedValue => describe opLatchedValue 0 .unused
  | .reset => describe opReset 0 .unused
  | .inbound p => describe opInbound 0 (.bytes p)
  | .txReady hi => .command (commandWord hi c.commands.txReady)
  | .rxReady hi => .command (commandWord hi c.commands.rxReady)
  | .txData hi => .command (commandWord hi c.commands.txData)
  | .txDataLegacy hi => .command (commandWord hi c.commands.txDataLegacy)
  | .rxData hi => .command (commandWord hi c.commands.rxData)
  | .rxDataLegacy hi => .command (commandWord hi c.commands.rxDataLegacy)
  | .rxBusy hi => .command (commandWord hi c.commands.rxBusy)
  | .config hi => .command (commandWord hi c.commands.config)
  | .unrecognized v => .command v

/-- The operand `arg` an op takes, all zero: a zero cycle count, an empty payload, or the zero word. -/
def zeroArg (op : Nat) : Arg :=
  if op = opAdvance then .cycles 0
  else if op = opInbound then .bytes []
  else .word 0

/-- The op bytes of the descriptor rows of the opcode table. -/
def tableOps : List Nat :=
  [opCpuRw, opCpuWw, opDmaRh, opDmaRw, opDmaWh, opDmaWw, opAdvance, opForceFinish, opIsBusy, opLatchedValue, opReset,
   opInbound]

/-- What is presented for an opcode-table row of `nbits` bits with the bits `w`: a row of one byte is an op byte whose
operands are all zero, and every other row is a command word (entry 3). A byte that is no op of the table is read as a
command word with zero upper bits, which is what "every bit above nbits is 0" makes of it. -/
def tableInput (nbits w : Nat) : Presented :=
  if nbits ≤ 8 ∧ w % 2 ^ 8 ∈ tableOps then describe (w % 2 ^ 8) 0 (zeroArg (w % 2 ^ 8))
  else .command (BitVec.ofNat 32 (w % 2 ^ nbits))

/-- The instruction the decoder reads from an opcode-table row, under the default configuration (entry 3). -/
def decodeTableWord (nbits w : Nat) : Option Instr :=
  match decode Config.standard (tableInput nbits w) with
  | .ok i => some i
  | .error _ => none

end Sys2Proof
end

