-- ==== Sys2Proof/Machine/State.lean ====
section
/-!
DEFINITION. The state of the block: the record of R20 with every field of R23 to R39, the parameters of R40, and the model's
own fields (the presented transactions, the last response, the draw counter); its faults, its refusals, and reset.
-/

namespace Sys2Proof.Machine

/-- The fault kinds of R241, each with the value it records. -/
inductive FaultKind where
  /-- `ProtocolFatal(BadSignature)`, records the bus address A. Raised by TX_DATA_LEGACY. -/
  | badSignature (a : Word)
  /-- `ProtocolFatal(OversizePayload)`, records (size, L). Raised by TX_DATA_LEGACY. -/
  | oversizePayload (size : BitVec 24) (l : Word)
  /-- `ProtocolFatal(UnknownHeader)`, records the header type. Raised by TX_DATA_LEGACY. -/
  | unknownHeader (t : Byte)
  /-- `TransferRange(L, A)`. Raised by the four transfer commands. -/
  | transferRange (l a : Word)
  /-- `MisalignedAccess(addr, w)`. Raised by any bus read or write of a mapped target. -/
  | misalignedAccess (addr : Word) (w : Width)
  /-- `UnsupportedWidth(addr)`. Raised by a Half access to the register block. -/
  | unsupportedWidth (addr : Word)
  deriving DecidableEq, Repr

/-- The Network Bridge's single active endpoint (R36); `none` of `Option Endpoint` is the spec's None. -/
inductive Endpoint where
  | client (host : List Byte)
  | server (port : List Byte)
  deriving DecidableEq, Repr

/-- One entry of `outLog`: a send and the endpoint it went through (R37). -/
structure Send where
  endpoint : Endpoint
  payload : List Byte
  deriving DecidableEq, Repr

/-- One entry of `devLog` (R38): the device, the address, the local offset, and the value, which carries the width
(entry 20). -/
structure DevWrite where
  device : Device
  address : Word
  offset : Nat
  value : BusValue
  deriving DecidableEq, Repr

/-- What a step returned to its caller (R12; entry 9). -/
inductive Response where
  /-- The transaction returns nothing. -/
  | nothing
  /-- A DMA-class read's value (R121, R122). -/
  | value (v : BusValue)
  /-- `readWord`'s (value, cyclesConsumed) (R141). -/
  | valueAndCycles (v : Word) (cycles : Nat)
  /-- `writeWord`'s cyclesConsumed, `forceFinish`'s cyclesRemaining (R142, R146). -/
  | cycles (n : Nat)
  /-- `isBusy`'s Bool (R144). -/
  | flag (b : Bool)
  /-- `latchedValue`'s u32 (R144). -/
  | latched (v : Word)
  deriving DecidableEq, Repr

/-- A byte store as (offset, byte) pairs in canonical form: offsets strictly rising, and no entry equal to what an unlisted
offset reads as (`Memory.unlisted`; `Memory.wf`). -/
abbrev Memory := List Host.Cell

/-- The state of the block. -/
structure State where
  /-- The parameters of R9 and R40. No step changes them (entry 4). -/
  config : Config
  /-- A CPU-class word write is in flight (R23). -/
  busy : Bool
  /-- The value of the last CPU-class word write that started an in-flight period (R23). -/
  latch : Word
  /-- The completion token (R24). -/
  pending : Option Nat
  /-- The command/status register, +0x00 (R26). -/
  status : Word
  /-- data[0], +0x04 (R27). -/
  data0 : Word
  /-- data[1], +0x08 (R27). -/
  data1 : Word
  /-- R29. -/
  transmitReady : Bool
  /-- R30. -/
  receiveReady : Bool
  /-- R31. -/
  receiveBusy : Bool
  /-- The staging buffer; STAGE_N bytes (R32; entry 12). -/
  staging : List Byte
  /-- The pending-result cache (R33). -/
  pendingResult : Word
  /-- `config.sdramWritable` of the source (R34). -/
  sdramWritable : Bool
  /-- The cartridge ROM byte store, by offset (R35; entry 7). -/
  rom : Memory
  /-- The single active endpoint (R36). -/
  endpoint : Option Endpoint
  /-- The outbound sends, oldest first (R37). -/
  outLog : List Send
  /-- The writes handed to external devices, oldest first (R38). -/
  devLog : List DevWrite
  /-- `none` while the block runs (R39, R240). -/
  fault : Option FaultKind
  /-- The model's own: what the callers have presented and the block has not taken, oldest first (R22; entry 1). -/
  inputs : List Presented
  /-- The model's own: what the last step returned (entry 9). -/
  response : Response
  /-- The model's own: how many draws have been taken (R11; entry 8). -/
  draws : Nat
  deriving DecidableEq, Repr

/-- Why a step cannot be taken at all. -/
inductive Fault where
  /-- Raised by every step and every transaction attempted once `fault ≠ none` (R240, U31): the run has ended (entry 17).
  Safe: the machine stops where the spec says no step is enabled. -/
  | halted (k : FaultKind)
  deriving DecidableEq, Repr

/-- Why an instruction has no meaning here. -/
inductive Refusal where
  /-- Answered only by an arm of `exec` with no meaning. Safe. -/
  | notModelled (mnemonic : String)
  /-- Answered by `step` on a presented record that the decoder refuses (R82, R91, U2, U3). Safe: the spec says it spells no
  transaction. -/
  | noTransaction (e : DecodeError)
  /-- Answered by INBOUND while no endpoint exists: the spec says there is no such step (R216, V110; entry 18). Safe. -/
  | inboundNotEnabled
  /-- Answered by INBOUND with more than STAGE_N bytes: the spec has no such step (R217; entry 18). Unsafe in the spec's own words:
  runs of a worker that could deliver more are missing (U10; entry 15). -/
  | inboundTooLong (len : Nat)
  deriving DecidableEq, Repr

/-- The state right after reset (R260): "`transmitReady = true`, all others false/zero". The parameters are the default
configuration (entry 5), the ROM store holds the all-zero image (entry 7), and nothing has been presented (entry 1). -/
def State.reset : State where
  config := Config.standard
  busy := false
  latch := 0#32
  pending := none
  status := 0#32
  data0 := 0#32
  data1 := 0#32
  transmitReady := true
  receiveReady := false
  receiveBusy := false
  staging := List.replicate stageN 0#8
  pendingResult := 0#32
  sdramWritable := false
  rom := []
  endpoint := none
  outLog := []
  devLog := []
  fault := none
  inputs := []
  response := .nothing
  draws := 0

end Sys2Proof.Machine
end

