-- ==== Sys2Proof/Machine/Ops.lean ====
section
/-!
DEFINITION. The named operations the meanings share: the byte store, big-endian assembly (R11, R59), the staging buffer, the
environment's draws, raising a fault (R240), and how a transaction's outcome is settled.
-/

namespace Sys2Proof.Machine

/-- What an unlisted offset of a byte store reads as (entry 7). -/
def Memory.unlisted : Byte := 0#8

/-- The byte at an offset. -/
def Memory.read : Memory → Nat → Byte
  | [], _ => Memory.unlisted
  | c :: m, a => if c.1 = a then c.2 else Memory.read m a

/-- A cell at the front of a store, left out when it says what an unlisted offset says. -/
def Memory.put (a : Nat) (b : Byte) (m : Memory) : Memory :=
  if b = Memory.unlisted then m else (a, b) :: m

/-- Write one byte, keeping the canonical form. -/
def Memory.write : Memory → Nat → Byte → Memory
  | [], a, b => Memory.put a b []
  | c :: m, a, b =>
    if a < c.1 then Memory.put a b (c :: m)
    else if a = c.1 then Memory.put a b m
    else c :: Memory.write m a b

/-- `RomRead(off, n)`: the `n` bytes from `off` (R11). -/
def Memory.readBytes (m : Memory) (off : Nat) : Nat → List Byte
  | 0 => []
  | n + 1 => m.read off :: Memory.readBytes m (off + 1) n

/-- `RomWrite(off, s)`: the bytes of `s` from `off` on (R11). -/
def Memory.writeBytes (m : Memory) (off : Nat) : List Byte → Memory
  | [] => m
  | b :: bs => Memory.writeBytes (m.write off b) (off + 1) bs

/-- The canonical form, from a lower bound on the offsets. -/
def Memory.wfFrom : Nat → Memory → Bool
  | _, [] => true
  | lo, c :: m => decide (lo ≤ c.1) && decide (c.2 ≠ Memory.unlisted) && Memory.wfFrom (c.1 + 1) m

/-- The canonical form: offsets strictly rising, no entry equal to what an unlisted offset reads as. -/
def Memory.wf (m : Memory) : Bool := Memory.wfFrom 0 m

/-- Every listed offset lies below `n`. -/
def Memory.below (n : Nat) (m : Memory) : Bool := m.all (fun c => decide (c.1 < n))

/-- `be32`: the first byte is bits 31:24 (R11, R59). -/
def be32 (b0 b1 b2 b3 : Byte) : Word := b0 ++ b1 ++ b2 ++ b3

/-- `be16`: the first byte is bits 15:8 (R11, R59). -/
def be16 (b0 b1 : Byte) : Half := b0 ++ b1

/-- `be32(RomRead(off, 4))`. -/
def Memory.word (m : Memory) (off : Nat) : Word :=
  be32 (m.read off) (m.read (off + 1)) (m.read (off + 2)) (m.read (off + 3))

/-- `be16(RomRead(off, 2))`. -/
def Memory.half (m : Memory) (off : Nat) : Half := be16 (m.read off) (m.read (off + 1))

/-- `nbytes(w)` (R110). -/
def nbytes : Width → Nat
  | .half => 2
  | .word => 4

/-- The width of a bus value. -/
def widthOf : BusValue → Width
  | .half _ => .half
  | .word _ => .word

/-- A bus value widened to 32 bits (`zext_32`, R11). -/
def widen : BusValue → Word
  | .half v => v.setWidth 32
  | .word v => v

/-- `bytes_be(v, n)`: the big-endian spelling, most significant byte first (R110). -/
def bytesBe : BusValue → List Byte
  | .half v => [v.extractLsb' 8 8, v.extractLsb' 0 8]
  | .word v => [v.extractLsb' 24 8, v.extractLsb' 16 8, v.extractLsb' 8 8, v.extractLsb' 0 8]

/-- `staging[0 .. |s|) <- s`: the bytes beyond the written ones keep their values (R32). -/
def overlay (s staging : List Byte) : List Byte := s ++ staging.drop s.length

/-- `staging[0 .. n)`. -/
def stagingTake (n : Nat) (staging : List Byte) : List Byte := staging.take n

/-- `draw r : u_w`: a value of the width from the environment's oracle, under no law (R11, R60; entry 8). -/
def drawValue (w : Width) (s : State) : BusValue × State :=
  match w with
  | .half => (.half (Config.drawHalf s.draws), { s with draws := s.draws + 1 })
  | .word => (.word (Config.drawWord s.draws), { s with draws := s.draws + 1 })

/-- `draw ok : Bool` (R212, R213; entry 8). -/
def drawOk (s : State) : Bool × State :=
  (Config.drawBool s.draws, { s with draws := s.draws + 1 })

/-- What a transaction does: the next state, or the fault it raises. -/
abbrev Action := State → Except FaultKind State

/-- TAKING AN EXCEPTION: `raise Fault(kind)` sets `fault <- some kind`; every other field keeps the value it had before the
step (R240, R249; entry 17). There is no handler and no return (R250). -/
def State.raise (s : State) (k : FaultKind) : State := { s with fault := some k }

/-- The code of a fault kind (R241). -/
def FaultKind.code : FaultKind → Nat
  | .badSignature _ => 1
  | .oversizePayload _ _ => 2
  | .unknownHeader _ => 3
  | .transferRange _ _ => 4
  | .misalignedAccess _ _ => 5
  | .unsupportedWidth _ => 6

/-- No step of either agent is enabled once `fault ≠ none` (R240, U31). -/
def whenRunning (s : State) (k : Host.Outcome State Fault Refusal) : Host.Outcome State Fault Refusal :=
  match s.fault with
  | some f => .fault (.halted f)
  | none => k

/-- The end of a transaction: its next state, or the state before it with the fault recorded and nothing else (R249). -/
def settle (s : State) (r : Except FaultKind State) : Host.Outcome State Fault Refusal :=
  match r with
  | .ok t => .next t
  | .error k => .next (s.raise k)

/-- One transaction, an atomic step (R12). -/
def transact (s : State) (a : Action) : Host.Outcome State Fault Refusal :=
  whenRunning s (settle s (a s))

/-- The response of a step (R12; entry 9). -/
def State.respond (s : State) (r : Response) : State := { s with response := r }

/-- What the step takes next: nothing presented, a record that spells no transaction, or a transaction and the state with
it taken. -/
inductive Taken where
  | nothing
  | refused (e : DecodeError)
  | transaction (i : Instr) (s : State)
  deriving DecidableEq, Repr

/-- Take the oldest presented record and decode it (R22; entry 1). -/
def takeInput (s : State) : Taken :=
  match s.inputs with
  | [] => .nothing
  | p :: rest =>
    match decode s.config p with
    | .error e => .refused e
    | .ok i => .transaction i { s with inputs := rest }

end Sys2Proof.Machine
end

