-- ==== Sys2Proof/Machine/Flags.lean ====
section
/-!
DEFINITION. The status register's bits and the words the queries compose (R26, R90, R184).
-/

namespace Sys2Proof.Machine

/-- `zext_32` of a Bool (R11). -/
def zextBool (b : Bool) : Word := if b then 1#32 else 0#32

/-- The ERR bit of a status word: bit 28 (R26). -/
def errOf (v : Word) : Bool := v.getLsbD errBit

/-- The bit named CPU-busy: bit 30, a stored bit the block never sets on its own (R26, D29). -/
def cpuBusyOf (v : Word) : Bool := v.getLsbD cpuBusyBit

/-- `status | (1 << ERR_BIT)` (R184). -/
def setErr (v : Word) : Word := v ||| (1#32 <<< errBit)

/-- The receive-ready return word: bit 31 `receiveBusy`, bit 0 ready, the rest 0 (R90). -/
def readyWord (receiveBusy ready : Bool) : Word := (zextBool receiveBusy <<< rxBusyFlag) ||| zextBool ready

/-- `TransmitFinish(ok)`: restore `transmitReady`; clear status on success, set ERR and keep the command word on failure
(R184). -/
def transmitFinish (ok : Bool) (s : State) : State :=
  if ok then { s with transmitReady := true, status := 0#32 }
  else { s with transmitReady := true, status := setErr s.status }

end Sys2Proof.Machine
end

