-- ==== Sys2Proof/Machine/Operands.lean ====
section
/-!
DEFINITION. The operands of transactions and commands: alignment and the unmapped pattern of an address (R56, R57, R110), the
register an offset selects (R84), the transfer arguments (R86), the legacy header word (R88), the header type (R87) and the
connected host string (R212).
-/

namespace Sys2Proof.Machine

/-- `misaligned(w, addr)` (R110). -/
def misaligned (w : Width) (addr : Word) : Bool :=
  match w with
  | .half => decide (addr.toNat % 2 ≠ 0)
  | .word => decide (addr.toNat % 4 ≠ 0)

/-- `pattern32(addr) = (addr & 0xFFFF) | (addr << 16)` (R56). -/
def pattern32 (addr : Word) : Word := (addr &&& 0xFFFF#32) ||| (addr <<< 16)

/-- `pattern16(addr) = pattern32(addr)[15:0]` (R57). -/
def pattern16 (addr : Word) : Half := (pattern32 addr).setWidth 16

/-- `pattern_w(addr)` (R110). -/
def patternOf (w : Width) (addr : Word) : BusValue :=
  match w with
  | .half => .half (pattern16 addr)
  | .word => .word (pattern32 addr)

/-- The registers of the block (R84). -/
inductive Register where
  | commandStatus
  | data0
  | data1
  | version
  deriving DecidableEq, Repr

/-- The register `k = off[3:2]` a local offset selects (R84). -/
def registerAt (off : Nat) : Register :=
  if off / 4 % 4 = 0 then .commandStatus
  else if off / 4 % 4 = 1 then .data0
  else if off / 4 % 4 = 2 then .data1
  else .version

/-- `L = data[0]`, the length in bytes, unsigned (R86). -/
def State.transferLength (s : State) : Nat := s.data0.toNat

/-- `A = data[1]`, unsigned: for the generic variants an offset into `rom` (R86). -/
def State.transferAddress (s : State) : Nat := s.data1.toNat

/-- For the legacy variants: `rom` offset `A - CART_ROM.low` (R86). -/
def State.legacyOffset (s : State) : Nat := s.transferAddress - s.config.windows.cartRom

/-- The range check of the generic variants (R183, R185, R187). -/
def State.genericInRange (s : State) : Bool :=
  s.config.romPresent && decide (s.transferLength ≤ stageN) &&
  decide (s.transferAddress + s.transferLength ≤ s.config.romSize)

/-- The range check of the legacy variants, which touch `extra` bytes before the payload: 8 for a transmit, none for a
receive (R183, R186, R188). -/
def State.legacyInRange (s : State) (extra : Nat) : Bool :=
  s.config.romPresent && decide (s.config.windows.cartRom ≤ s.transferAddress) &&
  decide (s.transferLength ≤ stageN) && decide (s.legacyOffset + extra + s.transferLength ≤ s.config.romSize)

/-- `Fault(TransferRange(L, A))` (R183). -/
def State.transferRange (s : State) : FaultKind := .transferRange s.data0 s.data1

/-- `H[31:24]`, the header type byte (R88). -/
def headerTypeByte (h : Word) : Byte := h.extractLsb' 24 8

/-- `H[23:0]`, the declared payload size (R88). -/
def headerSize (h : Word) : BitVec 24 := h.extractLsb' 0 24

/-- The request a header type byte selects, if any (R87). -/
def headerOf (c : HeaderCodes) (t : Byte) : Option HeaderType :=
  if t = c.connect then some .connect
  else if t = c.server then some .server
  else if t = c.send then some .send
  else if t = c.text then some .text
  else none

/-- The ASCII code of ':'. -/
def colon : Byte := 0x3A#8

/-- The bytes of a payload before its first ':', all of it when it has none (R212). -/
def hostOf (p : List Byte) : List Byte := p.takeWhile (fun b => b != colon)

end Sys2Proof.Machine
end

