-- ==== Sys2Proof/Machine/AddressDecoder.lean ====
section
/-!
DEFINITION. The Address Decoder (R50 to R55): a pure, total function of the address and the configuration.
-/

namespace Sys2Proof.Machine

/-- One row of the window table: a closed interval of addresses (R51). -/
structure Window where
  id : WindowId
  low : Nat
  high : Nat
  deriving DecidableEq, Repr

/-- The window table in R51's order. -/
def windowRows (t : WindowTable) : List Window :=
  [⟨.low, 0, t.ddC2s - 1⟩,
   ⟨.ddC2s, t.ddC2s, t.ddDs - 1⟩,
   ⟨.ddDs, t.ddDs, t.ddCtrl - 1⟩,
   ⟨.ddCtrl, t.ddCtrl, t.ddMs - 1⟩,
   ⟨.ddMs, t.ddMs, t.gap1 - 1⟩,
   ⟨.gap1, t.gap1, t.ddIpl - 1⟩,
   ⟨.ddIpl, t.ddIpl, t.gap2 - 1⟩,
   ⟨.gap2, t.gap2, t.cartSave - 1⟩,
   ⟨.cartSave, t.cartSave, t.cartRom - 1⟩,
   ⟨.cartRom, t.cartRom, t.viewer - 1⟩,
   ⟨.viewer, t.viewer, t.cfgBase - 1⟩,
   ⟨.cfg, t.cfgBase, t.cfgBase + 15⟩,
   ⟨.rest, t.cfgBase + 16, 2 ^ 32 - 1⟩]

/-- `row.low <= addr <= row.high` (R53). -/
def Window.holds (r : Window) (a : Nat) : Bool := decide (r.low ≤ a) && decide (a ≤ r.high)

/-- "A lookup returns the first window containing the address" (R53). -/
def windowOf (t : WindowTable) (a : Nat) : Option Window := (windowRows t).find? (fun r => r.holds a)

/-- A gated device: mapped when its peripheral is present. -/
def gated (present : Bool) (dev : Device) (off : Nat) : Target :=
  if present then .mapped dev off else .unmapped

/-- The target of a row, with its gate and its local offset `addr - row.low` (R53, R54, R55). -/
def targetOf (c : Config) (r : Window) (a : Nat) : Target :=
  match r.id with
  | .low => .unmapped
  | .ddC2s => gated c.ddPresent .ddC2s (a - r.low)
  | .ddDs => gated c.ddPresent .ddDs (a - r.low)
  | .ddCtrl => gated c.ddPresent .ddCtrl (a - r.low)
  | .ddMs => gated c.ddPresent .ddMs (a - r.low)
  | .gap1 => .unmapped
  | .ddIpl => gated c.ddPresent .ddIpl (a - r.low)
  | .gap2 => .unmapped
  | .cartSave => if c.ramPresent then .mapped .saveRam (a - r.low) else gated c.flashPresent .saveFlash (a - r.low)
  | .cartRom => gated c.romPresent .rom (a - r.low)
  | .viewer => gated c.viewerPresent .viewer (a - r.low)
  | .cfg => .mapped .cfg (a - r.low)
  | .rest => .unmapped

/-- `decode(addr)` (R53). A table with no row for the address is no well-formed table; the answer is then Unmapped. -/
def decodeAddress (c : Config) (addr : Word) : Target :=
  match windowOf c.windows addr.toNat with
  | none => .unmapped
  | some r => targetOf c r addr.toNat

end Sys2Proof.Machine
end

