-- ==== Sys2Proof/Machine/NetworkBridge.lean ====
section
/-!
DEFINITION. The Network Bridge's interface (44_network_bridge.md): the requests a transmit makes (R212 to R215), and the
inbound step of its background worker (R216).
-/

namespace Sys2Proof.Machine

/-- Teardown: `endpoint <- None` (R211). -/
def teardown (s : State) : State := { s with endpoint := none }

/-- A bridge event with its payload: the staging bytes, the payload's length, the flag (R212, R216). -/
def postEvent (p : List Byte) (s : State) : State :=
  { s with staging := overlay p s.staging, pendingResult := BitVec.ofNat 32 p.length, receiveReady := true }

/-- `BridgeConnect(P)` (R212). -/
def bridgeConnect (p : List Byte) (s : State) : Bool × State :=
  match drawOk (teardown s) with
  | (true, t) => (true, postEvent (hostOf p) { t with endpoint := some (.client (hostOf p)) })
  | (false, t) => (false, t)

/-- `BridgeServe(P)` (R213). -/
def bridgeServe (p : List Byte) (s : State) : Bool × State :=
  match drawOk (teardown s) with
  | (true, t) => (true, { t with endpoint := some (.server p) })
  | (false, t) => (false, t)

/-- `BridgeSend(P)`: logged with its endpoint; a no-op if there is none (R214). -/
def bridgeSend (p : List Byte) (s : State) : State :=
  match s.endpoint with
  | none => s
  | some e => { s with outLog := s.outLog ++ [⟨e, p⟩] }

/-- The no-op text request (R215). -/
def bridgeText (s : State) : State := s

/-- `NetDispatch(t, P) -> ok` (R184). -/
def netDispatch (t : HeaderType) (p : List Byte) (s : State) : Bool × State :=
  match t with
  | .connect => bridgeConnect p s
  | .server => bridgeServe p s
  | .send => (true, bridgeSend p s)
  | .text => (true, bridgeText s)

/-- INBOUND(p), a step of the bridge agent, enabled iff an endpoint exists and `fault = none` (R216); there is no such step
for `|p| > STAGE_N` (R217). -/
def execInbound (p : List Byte) (s : State) : Host.Outcome State Fault Refusal :=
  whenRunning s
    (if stageN < p.length then .refused (.inboundTooLong p.length)
     else
      match s.endpoint with
      | none => .refused .inboundNotEnabled
      | some _ => .next ((postEvent p s).respond .nothing))

end Sys2Proof.Machine
end

