-- ==== Sys2Proof/Machine/CommandEngine.lean ====
section
/-!
DEFINITION. The Command Engine (43_commands.md): the nine commands, each run on a state whose `status` already holds the
written word, and the dispatch.
-/

namespace Sys2Proof.Machine

/-- `TxReady()` (R181). -/
def cmdTxReady : Action := fun s =>
  .ok { s with data0 := zextBool s.transmitReady, status := 0#32 }

/-- `RxReady()` (R182). -/
def cmdRxReady : Action := fun s =>
  if s.receiveReady then
    .ok { s with
      data0 := readyWord s.receiveBusy true
      data1 := s.pendingResult
      receiveReady := false
      pendingResult := 0#32 }
  else
    .ok { s with
      data0 := readyWord s.receiveBusy false
      pendingResult := 0#32 }

/-- `staging[0 .. L) <- B; transmitReady <- false` (R185, R186). -/
def stageTransmit (b : List Byte) (s : State) : State :=
  { s with staging := overlay b s.staging, transmitReady := false }

/-- The request of a generic transmit of the bytes `b`: the first byte is the header type and the rest the payload; an empty
transmit or an unknown type makes no request (R89, R185). -/
def genericRequest (b : List Byte) (s : State) : Bool × State :=
  match b with
  | [] => (true, s)
  | t :: p =>
    match headerOf s.config.headers t with
    | none => (true, s)
    | some h => netDispatch h p s

/-- The end of a transmit whose request answered `r`. -/
def finishRequest (r : Bool × State) : State := transmitFinish r.1 r.2

/-- `TxData()` (R185). -/
def cmdTxData : Action := fun s =>
  if s.genericInRange then
    let b := s.rom.readBytes s.transferAddress s.transferLength
    .ok (finishRequest (genericRequest b (stageTransmit b s)))
  else .error s.transferRange

/-- The legacy transmit after its checks: `b` are the L payload bytes, `p` the request's payload (R186). -/
def sendLegacy (h : HeaderType) (b p : List Byte) (s : State) : State :=
  finishRequest (netDispatch h p (stageTransmit b s))

/-- `TxDataLegacy()`, its checks in R186's order (R248). -/
def cmdTxDataLegacy : Action := fun s =>
  if s.legacyInRange 8 then
    let o := s.legacyOffset
    let h := s.rom.word (o + 4)
    if s.rom.word o = s.config.legacySig then
      if (headerSize h).toNat ≤ s.transferLength then
        match headerOf s.config.headers (headerTypeByte h) with
        | some t =>
          let b := s.rom.readBytes (o + 8) s.transferLength
          .ok (sendLegacy t b (b.take (headerSize h).toNat) s)
        | none => .error (.unknownHeader (headerTypeByte h))
      else .error (.oversizePayload (headerSize h) s.data0)
    else .error (.badSignature s.data1)
  else .error s.transferRange

/-- `receiveBusy <- true; RomWrite(off, staging[0 .. L)); receiveBusy <- false` (R187, R188). -/
def receiveTo (off : Nat) (s : State) : State :=
  let busy := { s with receiveBusy := true }
  let copied := { busy with rom := busy.rom.writeBytes off (stagingTake busy.transferLength busy.staging) }
  { copied with receiveBusy := false }

/-- `RxData()` (R187). -/
def cmdRxData : Action := fun s =>
  if s.genericInRange then .ok (receiveTo s.transferAddress s) else .error s.transferRange

/-- `RxDataLegacy()` (R188). -/
def cmdRxDataLegacy : Action := fun s =>
  if s.legacyInRange 0 then .ok (receiveTo s.legacyOffset s) else .error s.transferRange

/-- `RxBusy()` (R189). -/
def cmdRxBusy : Action := fun s => .ok { s with data0 := zextBool s.receiveBusy }

/-- `Config()` (R190). -/
def cmdConfig : Action := fun s =>
  if s.data0 = s.config.optSdramWritable then .ok { s with sdramWritable := s.data1 != 0#32 } else .ok s

/-- `Unrecognized()` (R191). -/
def cmdUnrecognized : Action := fun s => .ok { s with status := 0#32 }

/-- The rule a command runs (R180). -/
def runCommand : Command → Action
  | .txReady => cmdTxReady
  | .rxReady => cmdRxReady
  | .txData => cmdTxData
  | .txDataLegacy => cmdTxDataLegacy
  | .rxData => cmdRxData
  | .rxDataLegacy => cmdRxDataLegacy
  | .rxBusy => cmdRxBusy
  | .config => cmdConfig
  | .unrecognized => cmdUnrecognized

/-- `Dispatch(v)`: exactly one command rule, by `code = v[7:0]` (R180). -/
def dispatch (v : Word) : Action := fun s => runCommand (commandOf s.config.commands (codeOf v)) s

end Sys2Proof.Machine
end

