-- ==== Sys2Proof/Machine/RegisterFile.lean ====
section
/-!
DEFINITION. The device register file (42_register_file.md): reads and writes by local offset.
-/

namespace Sys2Proof.Machine

/-- `RegRead(off)`; it writes nothing (R161). -/
def regRead (off : Nat) (s : State) : Word :=
  match registerAt off with
  | .commandStatus => s.status
  | .data0 => s.data0
  | .data1 => s.data1
  | .version => s.config.versionMagic

/-- A write to the command register: store the word, then run the command, in the same atomic step (R162, R163). -/
def writeCommand (v : Word) (command : Action) : Action := fun s => command { s with status := v }

/-- `RegWrite(off, v)` (R162). -/
def regWrite (off : Nat) (v : Word) : Action := fun s =>
  match registerAt off with
  | .commandStatus => writeCommand v (dispatch v) s
  | .data0 => .ok { s with data0 := v }
  | .data1 => .ok { s with data1 := v }
  | .version => .ok s

end Sys2Proof.Machine
end

