-- ==== Sys2Proof/Machine/BusAccess.lean ====
section
/-!
DEFINITION. The bus primitives `BusRead` and `BusWrite` and the four DMA-class transactions (40_bus_access.md).
-/

namespace Sys2Proof.Machine

/-- `RomBusRead(w, off)`: big-endian inside the store, a draw beyond it (R113, R67). -/
def romBusRead (w : Width) (off : Nat) (s : State) : BusValue × State :=
  if off + nbytes w ≤ s.config.romSize then
    match w with
    | .half => (.half (s.rom.half off), s)
    | .word => (.word (s.rom.word off), s)
  else drawValue w s

/-- `RomBusWrite(w, off, v)`: gated by `sdramWritable`, discarded beyond the store (R117, R67). -/
def romBusWrite (off : Nat) (v : BusValue) (s : State) : State :=
  if s.sdramWritable && decide (off + nbytes (widthOf v) ≤ s.config.romSize) then
    { s with rom := s.rom.writeBytes off (bytesBe v) }
  else s

/-- `DevRead(dev, w, addr, off)`: the device's answer, a draw whatever the device and the address (R60, R114). -/
def devRead (_dev : Device) (w : Width) (_addr : Word) (_off : Nat) (s : State) : BusValue × State := drawValue w s

/-- `DevWrite(dev, w, addr, off, v)`: handed to the device and logged (R118). -/
def devWrite (dev : Device) (addr : Word) (off : Nat) (v : BusValue) (s : State) : State :=
  { s with devLog := s.devLog ++ [⟨dev, addr, off, v⟩] }

/-- `BusRead` of a mapped, aligned target (R111). -/
def readTarget (dev : Device) (w : Width) (addr : Word) (off : Nat) (s : State) : Except FaultKind (BusValue × State) :=
  match dev with
  | .cfg =>
    match w with
    | .half => .error (.unsupportedWidth addr)
    | .word => .ok (.word (regRead off s), s)
  | .rom => .ok (romBusRead w off s)
  | .ddC2s | .ddDs | .ddCtrl | .ddMs | .ddIpl | .saveRam | .saveFlash | .viewer => .ok (devRead dev w addr off s)

/-- `BusRead(w, addr)` (R111). The state it gives differs at most in the draw counter. -/
def busRead (w : Width) (addr : Word) (s : State) : Except FaultKind (BusValue × State) :=
  match decodeAddress s.config addr with
  | .unmapped => .ok (patternOf w addr, s)
  | .mapped dev off => if misaligned w addr then .error (.misalignedAccess addr w) else readTarget dev w addr off s

/-- `BusWrite` of a mapped, aligned target (R112). -/
def writeTarget (dev : Device) (addr : Word) (off : Nat) (v : BusValue) : Action := fun s =>
  match dev with
  | .cfg =>
    match v with
    | .half _ => .error (.unsupportedWidth addr)
    | .word x => regWrite off x s
  | .rom => .ok (romBusWrite off v s)
  | .ddC2s | .ddDs | .ddCtrl | .ddMs | .ddIpl | .saveRam | .saveFlash | .viewer => .ok (devWrite dev addr off v s)

/-- `BusWrite(w, addr, v)` (R112); the width is the value's. -/
def busWrite (addr : Word) (v : BusValue) : Action := fun s =>
  match decodeAddress s.config addr with
  | .unmapped => .ok s
  | .mapped dev off =>
    if misaligned (widthOf v) addr then .error (.misalignedAccess addr (widthOf v)) else writeTarget dev addr off v s

/-- A raw read, its value the response (R121, R122). -/
def dmaRead (w : Width) (addr : Word) : Action := fun s =>
  match busRead w addr s with
  | .ok (v, t) => .ok (t.respond (.value v))
  | .error k => .error k

/-- A raw write; it returns nothing (R123, R124). -/
def dmaWrite (addr : Word) (v : BusValue) : Action := fun s =>
  match busWrite addr v s with
  | .ok t => .ok (t.respond .nothing)
  | .error k => .error k

/-- DMA_RH (R121). -/
def execDmaRh (addr : Word) (s : State) : Host.Outcome State Fault Refusal := transact s (dmaRead .half addr)

/-- DMA_RW (R122). -/
def execDmaRw (addr : Word) (s : State) : Host.Outcome State Fault Refusal := transact s (dmaRead .word addr)

/-- DMA_WH (R123). -/
def execDmaWh (addr : Word) (v : Half) (s : State) : Host.Outcome State Fault Refusal :=
  transact s (dmaWrite addr (.half v))

/-- DMA_WW (R124). -/
def execDmaWw (addr v : Word) (s : State) : Host.Outcome State Fault Refusal :=
  transact s (dmaWrite addr (.word v))

end Sys2Proof.Machine
end

