-- ==== Sys2Proof/Machine/BusyLatch.lean ====
section
/-!
DEFINITION. The Busy/Latch Controller, the CPU-class entry points and the host operations on the controller
(41_busy_latch.md).
-/

namespace Sys2Proof.Machine

/-- The cycles remaining on the pending completion, 0 if none (R146). -/
def State.cyclesRemaining (s : State) : Nat :=
  match s.pending with
  | none => 0
  | some m => m

/-- `ForceFinishCore()` (R146): drain the pending completion. When none is pending nothing changes (entry 19). -/
def drain (s : State) : State :=
  match s.pending with
  | none => s
  | some _ => { s with pending := none, busy := false }

/-- `advance(n)` (R145). -/
def elapse (n : Nat) (s : State) : State :=
  match s.pending with
  | none => s
  | some m => if m ≤ n then { s with pending := none, busy := false } else { s with pending := some (m - n) }

/-- The start of an in-flight period (R142). -/
def beginWrite (v : Word) (s : State) : State :=
  { s with busy := true, latch := v, pending := some s.config.tWrite }

/-- `readWord(addr)` (R141). -/
def readWord (addr : Word) : Action := fun s =>
  if s.busy then .ok ((drain s).respond (.valueAndCycles s.latch s.cyclesRemaining))
  else
    match busRead .word addr s with
    | .ok (v, t) => .ok (t.respond (.valueAndCycles (widen v) s.config.tRead))
    | .error k => .error k

/-- `writeWord(addr, v)` (R142): dropped while busy; otherwise the controller is set and the target written at once (R143). -/
def writeWord (addr v : Word) : Action := fun s =>
  if s.busy then .ok (s.respond (.cycles s.config.tWchg))
  else
    match busWrite addr (.word v) (beginWrite v s) with
    | .ok t => .ok (t.respond (.cycles s.config.tWchg))
    | .error k => .error k

/-- CPU_RW (R141). -/
def execCpuRw (addr : Word) (s : State) : Host.Outcome State Fault Refusal := transact s (readWord addr)

/-- CPU_WW (R142). -/
def execCpuWw (addr v : Word) (s : State) : Host.Outcome State Fault Refusal := transact s (writeWord addr v)

/-- ADVANCE (R145). -/
def execAdvance (n : Nat) (s : State) : Host.Outcome State Fault Refusal :=
  transact s (fun s => .ok ((elapse n s).respond .nothing))

/-- FORCE_FINISH (R146). -/
def execForceFinish (s : State) : Host.Outcome State Fault Refusal :=
  transact s (fun s => .ok ((drain s).respond (.cycles s.cyclesRemaining)))

/-- IS_BUSY (R144). -/
def execIsBusy (s : State) : Host.Outcome State Fault Refusal :=
  transact s (fun s => .ok (s.respond (.flag s.busy)))

/-- LATCHED_VALUE (R144). -/
def execLatchedValue (s : State) : Host.Outcome State Fault Refusal :=
  transact s (fun s => .ok (s.respond (.latched s.latch)))

/-- Every field of R23 to R39 at its reset value, `rom` unchanged (R260). The configuration is not changed (R261), and the
model's own fields go on: what has been presented stays, and no draw is repeated (entry 11). -/
def systemInit (s : State) : State :=
  { State.reset with config := s.config, rom := s.rom, inputs := s.inputs, draws := s.draws }

/-- RESET (R260, R261). -/
def execReset (s : State) : Host.Outcome State Fault Refusal := transact s (fun s => .ok (systemInit s))

end Sys2Proof.Machine
end

