-- ==== Sys2Proof/Machine/Commands.lean ====
section
/-!
DEFINITION. The commands as instructions of their own: each is the step that writes its word to the command register by the
raw path (R120, R162; entry 2). A CPU-class or DMA-class write to CFG+0x0 runs the same command rules through `dispatch`.
-/

namespace Sys2Proof.Machine

/-- The raw write of a command word whose command is known: store the word, run the command, return nothing. -/
def issue (v : Word) (command : Action) : Action := fun s =>
  match writeCommand v command s with
  | .ok t => .ok (t.respond .nothing)
  | .error k => .error k

/-- TX_READY (R181). -/
def execTxReady (hi : BitVec 24) (s : State) : Host.Outcome State Fault Refusal :=
  transact s (issue (commandWord hi s.config.commands.txReady) cmdTxReady)

/-- RX_READY (R182). -/
def execRxReady (hi : BitVec 24) (s : State) : Host.Outcome State Fault Refusal :=
  transact s (issue (commandWord hi s.config.commands.rxReady) cmdRxReady)

/-- TX_DATA (R185). -/
def execTxData (hi : BitVec 24) (s : State) : Host.Outcome State Fault Refusal :=
  transact s (issue (commandWord hi s.config.commands.txData) cmdTxData)

/-- TX_DATA_LEGACY (R186). -/
def execTxDataLegacy (hi : BitVec 24) (s : State) : Host.Outcome State Fault Refusal :=
  transact s (issue (commandWord hi s.config.commands.txDataLegacy) cmdTxDataLegacy)

/-- RX_DATA (R187). -/
def execRxData (hi : BitVec 24) (s : State) : Host.Outcome State Fault Refusal :=
  transact s (issue (commandWord hi s.config.commands.rxData) cmdRxData)

/-- RX_DATA_LEGACY (R188). -/
def execRxDataLegacy (hi : BitVec 24) (s : State) : Host.Outcome State Fault Refusal :=
  transact s (issue (commandWord hi s.config.commands.rxDataLegacy) cmdRxDataLegacy)

/-- RX_BUSY (R189). -/
def execRxBusy (hi : BitVec 24) (s : State) : Host.Outcome State Fault Refusal :=
  transact s (issue (commandWord hi s.config.commands.rxBusy) cmdRxBusy)

/-- CONFIG (R190). -/
def execConfig (hi : BitVec 24) (s : State) : Host.Outcome State Fault Refusal :=
  transact s (issue (commandWord hi s.config.commands.config) cmdConfig)

/-- UNRECOGNIZED (R191). -/
def execUnrecognized (v : Word) (s : State) : Host.Outcome State Fault Refusal :=
  transact s (issue v cmdUnrecognized)

end Sys2Proof.Machine
end

