-- ==== Sys2Proof/Machine/Dispatch.lean ====
section
/-! DEFINITION. One arm per instruction: the meaning of each row of spec/opcode_table.json. -/

namespace Sys2Proof.Machine

def exec (i : Instr) (s : State) : Host.Outcome State Fault Refusal :=
  match i with
  | .cpuRw addr => Sys2Proof.Machine.execCpuRw addr s
  | .cpuWw addr v => Sys2Proof.Machine.execCpuWw addr v s
  | .dmaRh addr => Sys2Proof.Machine.execDmaRh addr s
  | .dmaRw addr => Sys2Proof.Machine.execDmaRw addr s
  | .dmaWh addr v => Sys2Proof.Machine.execDmaWh addr v s
  | .dmaWw addr v => Sys2Proof.Machine.execDmaWw addr v s
  | .advance n => Sys2Proof.Machine.execAdvance n s
  | .forceFinish => Sys2Proof.Machine.execForceFinish s
  | .isBusy => Sys2Proof.Machine.execIsBusy s
  | .latchedValue => Sys2Proof.Machine.execLatchedValue s
  | .reset => Sys2Proof.Machine.execReset s
  | .inbound p => Sys2Proof.Machine.execInbound p s
  | .txReady hi => Sys2Proof.Machine.execTxReady hi s
  | .rxReady hi => Sys2Proof.Machine.execRxReady hi s
  | .txData hi => Sys2Proof.Machine.execTxData hi s
  | .txDataLegacy hi => Sys2Proof.Machine.execTxDataLegacy hi s
  | .rxData hi => Sys2Proof.Machine.execRxData hi s
  | .rxDataLegacy hi => Sys2Proof.Machine.execRxDataLegacy hi s
  | .rxBusy hi => Sys2Proof.Machine.execRxBusy hi s
  | .config hi => Sys2Proof.Machine.execConfig hi s
  | .unrecognized v => Sys2Proof.Machine.execUnrecognized v s

end Sys2Proof.Machine
end

