-- ==== Sys2Proof/Machine/Step.lean ====
section
/-!
DEFINITION. One step of the block: it takes the oldest presented record, decodes it and runs it (R12, R22). With nothing
presented it does nothing (R262). After a fault no step is enabled (R240).
-/

namespace Sys2Proof.Machine

/-- One step. -/
def step (s : State) : Host.Outcome State Fault Refusal :=
  whenRunning s
    (match takeInput s with
     | .nothing => .next s
     | .refused e => .refused (.noTransaction e)
     | .transaction i t => exec i t)

/-- The state in which the next step takes the instruction of an opcode-table row: its record is presented first
(entries 1 and 3). -/
def State.withFetchWord (s : State) (nbits w : Nat) : State :=
  { s with inputs := tableInput nbits w :: s.inputs }

end Sys2Proof.Machine
end

