-- ==== Sys2Proof/Machine/Script.lean ====
section
/-!
DEFINITION. The pseudo-transactions of R93: notation for sequences of transactions. The block sees only the expansion.
-/

namespace Sys2Proof.Machine

/-- A pseudo-transaction (R93). -/
inductive Pseudo where
  | wait
  | setD0 (v : Word)
  | setD1 (v : Word)
  | cmd (c : Byte)
  | call (c : Byte) (d0 d1 : Word)
  | getS
  | getD0
  | getD1
  | getV
  deriving DecidableEq, Repr

/-- The bus address of an offset in the register block (R84). -/
def blockAddress (c : Config) (off : Nat) : Word := BitVec.ofNat 32 (c.windows.cfgBase + off)

/-- A CPU write to the register block and the wait that lets it complete (R93, R264). -/
def writeAndWait (c : Config) (off : Nat) (v : Word) : List Instr :=
  [.cpuWw (blockAddress c off) v, .advance c.tWrite]

/-- The expansion of a pseudo-transaction (R93). -/
def Pseudo.expand (c : Config) : Pseudo → List Instr
  | .wait => [.advance c.tWrite]
  | .setD0 v => writeAndWait c 0x4 v
  | .setD1 v => writeAndWait c 0x8 v
  | .cmd k => writeAndWait c 0x0 (k.setWidth 32)
  | .call k d0 d1 => writeAndWait c 0x4 d0 ++ writeAndWait c 0x8 d1 ++ writeAndWait c 0x0 (k.setWidth 32)
  | .getS => [.cpuRw (blockAddress c 0x0)]
  | .getD0 => [.cpuRw (blockAddress c 0x4)]
  | .getD1 => [.cpuRw (blockAddress c 0x8)]
  | .getV => [.cpuRw (blockAddress c 0xC)]

/-- A script as the callers present it. -/
def present (c : Config) (is : List Instr) : List Presented := is.map (encode c)

end Sys2Proof.Machine
end

