-- ==== Sys2Proof/Safety.lean ====
section
/-!
DEFINITION. What a good state and a good run are: the block runs (R240), and the invariant the spec's rules promise between
steps (R25, R192, R193, the derived note of R182, R217) with the canonical form of the ROM store; and which transactions
write the command register.
-/

namespace Sys2Proof.Machine

/-- The block runs: no fault has been raised. An observation that a run ends well requires it (R240). -/
abbrev State.Running (s : State) : Prop := s.fault = none

/-- `i` is an accepted Word write of `v` to the command register, from this state: a DMA-class write, or a CPU-class write
while not busy, of a word-aligned address that decodes to the block's register +0x00 (R84, R120, R142, R162). -/
def State.WritesCommand (s : State) (i : Instr) (v : Word) : Prop :=
  ∃ a off, decodeAddress s.config a = .mapped .cfg off ∧ registerAt off = .commandStatus ∧ a.toNat % 4 = 0 ∧
    ((i = .cpuWw a v ∧ s.busy = false) ∨ i = .dmaWw a v)

/-- The invariant between steps. -/
structure State.Inv (s : State) : Prop where
  /-- The parameters meet the spec's constraints (R51, R85, R87, R183). -/
  config_wf : s.config.wf = true
  /-- `busy = true` if and only if `pending ≠ none` (R25). -/
  busy_iff : s.busy = true ↔ s.pending ≠ none
  /-- A pending completion is due in at least 1 and at most T_WRITE cycles (R24, R141). -/
  pending_range : ∀ n, s.pending = some n → 0 < n ∧ n ≤ s.config.tWrite
  /-- Between steps `transmitReady = true` (R192). -/
  transmit_ready : s.transmitReady = true
  /-- Between steps `receiveBusy = false` (R193). -/
  receive_idle : s.receiveBusy = false
  /-- The staging buffer has STAGE_N bytes (R32). -/
  staging_size : s.staging.length = stageN
  /-- `receiveReady = false` implies `pendingResult = 0` (R182). -/
  cache_empty : s.receiveReady = false → s.pendingResult = 0#32
  /-- A payload length over STAGE_N is never recorded (R217). -/
  cache_bound : s.pendingResult.toNat ≤ stageN
  /-- The ROM store is in canonical form. -/
  rom_wf : s.rom.wf = true
  /-- The ROM store lists nothing beyond ROM_SIZE (R35). -/
  rom_below : s.rom.below s.config.romSize = true

end Sys2Proof.Machine
end

