-- ==== Sys2Proof/Certificates/Slice0/Obligations.lean ====
section
/-!
DEFINITION. The statements for the provers. Each docstring names the rules of spec/ it formalises. A next state is written as
the record of what changes, so every field that is not named (all of `rom` among them) is unchanged; where `rom` changes, the
statement speaks of every byte. `response` is the model's own field (entry 9).
-/

open Sys2Proof Sys2Proof.Machine

/-! ## Encodings -/

/-- R82, R83: every op of the two tables spells its transaction with its operands, and every other op is refused. -/
def Obligations.DescriptorOpsDecodeByTable : Prop :=
  ∀ (c : Config) (a v : Word) (h : Half) (n : Nat) (p : List Byte) (x : Arg),
    decode c (.descriptor ⟨0x01#8, a, x⟩) = .ok (.cpuRw a) ∧
    decode c (.descriptor ⟨0x03#8, a, .word v⟩) = .ok (.cpuWw a v) ∧
    decode c (.descriptor ⟨0x04#8, a, x⟩) = .ok (.dmaRh a) ∧
    decode c (.descriptor ⟨0x05#8, a, x⟩) = .ok (.dmaRw a) ∧
    decode c (.descriptor ⟨0x06#8, a, .word (h.setWidth 32)⟩) = .ok (.dmaWh a h) ∧
    decode c (.descriptor ⟨0x07#8, a, .word v⟩) = .ok (.dmaWw a v) ∧
    decode c (.descriptor ⟨0x10#8, a, .cycles n⟩) = .ok (.advance n) ∧
    decode c (.descriptor ⟨0x11#8, a, x⟩) = .ok .forceFinish ∧
    decode c (.descriptor ⟨0x12#8, a, x⟩) = .ok .isBusy ∧
    decode c (.descriptor ⟨0x13#8, a, x⟩) = .ok .latchedValue ∧
    decode c (.descriptor ⟨0x14#8, a, x⟩) = .ok .reset ∧
    (p.length ≤ 512 → decode c (.descriptor ⟨0x20#8, a, .bytes p⟩) = .ok (.inbound p)) ∧
    ∀ op : Byte,
      op ∉ [0x01#8, 0x03#8, 0x04#8, 0x05#8, 0x06#8, 0x07#8, 0x10#8, 0x11#8, 0x12#8, 0x13#8, 0x14#8, 0x20#8] →
      decode c (.descriptor ⟨op, a, x⟩) = .error (.noSuchOp op)

/-- A few rows of the opcode table, their bits written out, with zero operands (R82, R83, R85). -/
def Obligations.TableWordsDecode : Prop :=
  decodeTableWord 8 0b00000001 = some (.cpuRw 0#32) ∧
  decodeTableWord 8 0b00000110 = some (.dmaWh 0#32 0#16) ∧
  decodeTableWord 8 0b00010000 = some (.advance 0) ∧
  decodeTableWord 8 0b00100000 = some (.inbound []) ∧
  decodeTableWord 32 0b00000000000000000000000001010100 = some (.txReady 0#24) ∧
  decodeTableWord 32 0b00010000000000000000000001010011 = some (.txDataLegacy 0x100000#24) ∧
  decodeTableWord 32 0b00000000000000000000000000000000 = some (.unrecognized 0#32)

/-- R85, R180: with pairwise distinct codes, `v[7:0]` selects each of the eight commands whatever the bits 31:8 are, and every
other code is the unrecognized command. -/
def Obligations.CommandCodeSelectsOneCommand : Prop :=
  ∀ (c : Config), c.commands.all.Nodup →
    (∀ hi : BitVec 24,
      decodeCommand c (hi ++ c.commands.txReady) = .txReady hi ∧
      decodeCommand c (hi ++ c.commands.rxReady) = .rxReady hi ∧
      decodeCommand c (hi ++ c.commands.txData) = .txData hi ∧
      decodeCommand c (hi ++ c.commands.txDataLegacy) = .txDataLegacy hi ∧
      decodeCommand c (hi ++ c.commands.rxData) = .rxData hi ∧
      decodeCommand c (hi ++ c.commands.rxDataLegacy) = .rxDataLegacy hi ∧
      decodeCommand c (hi ++ c.commands.rxBusy) = .rxBusy hi ∧
      decodeCommand c (hi ++ c.commands.config) = .config hi) ∧
    ∀ v : Word, v.setWidth 8 ∉ c.commands.all → decodeCommand c v = .unrecognized v

/-- Decoding what is encoded gives every well-formed instruction back, with every operand (R80 to R85). -/
def Obligations.DecodeEncodeRoundTrip : Prop :=
  ∀ (c : Config) (i : Instr), c.wf = true → i.wf c = true → decode c (encode c i) = .ok i

/-- Encoding what a command word decodes to gives the word back: the decoder drops no bit of it (R85). -/
def Obligations.CommandWordsKeepEveryBit : Prop :=
  ∀ (c : Config) (v : Word), encode c (decodeCommand c v) = .command v

/-! ## The address decoder -/

/-- R51: the windows are disjoint and together cover every address; the decoder's lookup finds the one that holds it. -/
def Obligations.WindowsPartitionTheAddressSpace : Prop :=
  ∀ (t : WindowTable) (a : Word), t.wf = true →
    ∃ r ∈ windowRows t, r.low ≤ a.toNat ∧ a.toNat ≤ r.high ∧ windowOf t a.toNat = some r ∧
      ∀ q ∈ windowRows t, q.low ≤ a.toNat → a.toNat ≤ q.high → q = r

/-- R53, R55: the target of every window, with its gate and its local offset. -/
def Obligations.AddressDecodeFollowsTheWindowTable : Prop :=
  ∀ (c : Config) (a : Word), c.windows.wf = true →
    let t := c.windows
    let x := a.toNat
    (x < t.ddC2s → decodeAddress c a = .unmapped) ∧
    (t.ddC2s ≤ x → x < t.ddDs →
      decodeAddress c a = if c.ddPresent then .mapped .ddC2s (x - t.ddC2s) else .unmapped) ∧
    (t.ddDs ≤ x → x < t.ddCtrl →
      decodeAddress c a = if c.ddPresent then .mapped .ddDs (x - t.ddDs) else .unmapped) ∧
    (t.ddCtrl ≤ x → x < t.ddMs →
      decodeAddress c a = if c.ddPresent then .mapped .ddCtrl (x - t.ddCtrl) else .unmapped) ∧
    (t.ddMs ≤ x → x < t.gap1 →
      decodeAddress c a = if c.ddPresent then .mapped .ddMs (x - t.ddMs) else .unmapped) ∧
    (t.gap1 ≤ x → x < t.ddIpl → decodeAddress c a = .unmapped) ∧
    (t.ddIpl ≤ x → x < t.gap2 →
      decodeAddress c a = if c.ddPresent then .mapped .ddIpl (x - t.ddIpl) else .unmapped) ∧
    (t.gap2 ≤ x → x < t.cartSave → decodeAddress c a = .unmapped) ∧
    (t.cartSave ≤ x → x < t.cartRom →
      decodeAddress c a =
        if c.ramPresent then .mapped .saveRam (x - t.cartSave)
        else if c.flashPresent then .mapped .saveFlash (x - t.cartSave) else .unmapped) ∧
    (t.cartRom ≤ x → x < t.viewer →
      decodeAddress c a = if c.romPresent then .mapped .rom (x - t.cartRom) else .unmapped) ∧
    (t.viewer ≤ x → x < t.cfgBase →
      decodeAddress c a = if c.viewerPresent then .mapped .viewer (x - t.viewer) else .unmapped) ∧
    (t.cfgBase ≤ x → x < t.cfgBase + 16 → decodeAddress c a = .mapped .cfg (x - t.cfgBase)) ∧
    (t.cfgBase + 16 ≤ x → decodeAddress c a = .unmapped)

/-- R54: with SRAM present the flash device is never reached through the bus. -/
def Obligations.SramWinsOverFlash : Prop :=
  ∀ (c : Config) (a : Word), c.ramPresent = true → c.flashPresent = true →
    (∀ off, decodeAddress c a ≠ .mapped .saveFlash off) ∧
    (c.windows.wf = true → c.windows.cartSave ≤ a.toNat → a.toNat < c.windows.cartRom →
      decodeAddress c a = .mapped .saveRam (a.toNat - c.windows.cartSave))

/-! ## Bus access -/

/-- R125, R126: a read in a gap row, or in a window whose peripheral is absent, gives the pattern of its width and touches
nothing, whatever the state. -/
def Obligations.GapAndAbsentReadsGiveThePattern : Prop :=
  ∀ (s : State) (a : Word), s.config.windows.wf = true →
    let c := s.config
    let t := s.config.windows
    let x := a.toNat
    (x < t.ddC2s ∨ (t.gap1 ≤ x ∧ x < t.ddIpl) ∨ (t.gap2 ≤ x ∧ x < t.cartSave) ∨ t.cfgBase + 16 ≤ x ∨
      (c.ddPresent = false ∧ ((t.ddC2s ≤ x ∧ x < t.gap1) ∨ (t.ddIpl ≤ x ∧ x < t.gap2))) ∨
      (c.ramPresent = false ∧ c.flashPresent = false ∧ t.cartSave ≤ x ∧ x < t.cartRom) ∨
      (c.romPresent = false ∧ t.cartRom ≤ x ∧ x < t.viewer) ∨
      (c.viewerPresent = false ∧ t.viewer ≤ x ∧ x < t.cfgBase)) →
    busRead .word a s = .ok (.word ((a &&& 0xFFFF#32) ||| (a <<< 16)), s) ∧
    busRead .half a s = .ok (.half (a.setWidth 16), s)

/-- R115, R56, R57: a read of an unmapped address returns the pattern and changes nothing, whatever its alignment. DMA-class
reads, and a CPU-class read while not busy. -/
def Obligations.UnmappedReadsReturnThePattern : Prop :=
  ∀ (s : State) (a : Word), s.fault = none → decodeAddress s.config a = .unmapped →
    exec (.dmaRw a) s = .next { s with response := .value (.word (a.setWidth 16 ++ a.setWidth 16)) } ∧
    exec (.dmaRh a) s = .next { s with response := .value (.half (a.setWidth 16)) } ∧
    (s.busy = false →
      exec (.cpuRw a) s =
        .next { s with response := .valueAndCycles (a.setWidth 16 ++ a.setWidth 16) s.config.tRead })

/-- R119: a write to an unmapped address is discarded, whatever its alignment; an accepted CPU-class one still starts the busy
period (R142). -/
def Obligations.UnmappedWritesAreDiscarded : Prop :=
  ∀ (s : State) (a v : Word) (h : Half), s.fault = none → decodeAddress s.config a = .unmapped →
    exec (.dmaWw a v) s = .next { s with response := .nothing } ∧
    exec (.dmaWh a h) s = .next { s with response := .nothing } ∧
    (s.busy = false →
      exec (.cpuWw a v) s =
        .next { s with busy := true, latch := v, pending := some s.config.tWrite, response := .cycles s.config.tWchg })

/-- R244: a Word access with `addr[1:0] ≠ 0`, or a Half access with `addr[0] ≠ 0`, to a mapped target raises MisalignedAccess
and changes nothing else; a busy CPU read or write raises nothing. -/
def Obligations.MisalignedMappedAccessFaults : Prop :=
  ∀ (s : State) (a v : Word) (h : Half) (dev : Device) (off : Nat), s.fault = none →
    decodeAddress s.config a = .mapped dev off →
    (a.toNat % 4 ≠ 0 →
      exec (.dmaRw a) s = .next { s with fault := some (.misalignedAccess a .word) } ∧
      exec (.dmaWw a v) s = .next { s with fault := some (.misalignedAccess a .word) } ∧
      (s.busy = false →
        exec (.cpuRw a) s = .next { s with fault := some (.misalignedAccess a .word) } ∧
        exec (.cpuWw a v) s = .next { s with fault := some (.misalignedAccess a .word) })) ∧
    (a.toNat % 2 ≠ 0 →
      exec (.dmaRh a) s = .next { s with fault := some (.misalignedAccess a .half) } ∧
      exec (.dmaWh a h) s = .next { s with fault := some (.misalignedAccess a .half) }) ∧
    (s.busy = true →
      ∃ t u, exec (.cpuRw a) s = .next t ∧ t.fault = none ∧ exec (.cpuWw a v) s = .next u ∧ u.fault = none)

/-- R160, R245: a Half access to the register block at a Half-aligned address raises UnsupportedWidth, a Word access that is
not Word-aligned raises MisalignedAccess, and the step has no other effect. -/
def Obligations.RegisterBlockTakesAlignedWordsOnly : Prop :=
  ∀ (s : State) (a v : Word) (h : Half), s.fault = none → s.config.windows.wf = true →
    s.config.windows.cfgBase ≤ a.toNat → a.toNat < s.config.windows.cfgBase + 16 →
    (a.toNat % 2 = 0 →
      exec (.dmaRh a) s = .next { s with fault := some (.unsupportedWidth a) } ∧
      exec (.dmaWh a h) s = .next { s with fault := some (.unsupportedWidth a) }) ∧
    (a.toNat % 4 ≠ 0 →
      exec (.dmaRw a) s = .next { s with fault := some (.misalignedAccess a .word) } ∧
      exec (.dmaWw a v) s = .next { s with fault := some (.misalignedAccess a .word) })

/-- R113: a read of the ROM store is big-endian inside the store, and a draw beyond it. -/
def Obligations.RomReadsAreBigEndianInsideTheStore : Prop :=
  ∀ (s : State) (a : Word) (off : Nat), s.fault = none → decodeAddress s.config a = .mapped .rom off →
    (a.toNat % 4 = 0 → off + 4 ≤ s.config.romSize →
      exec (.dmaRw a) s =
        .next { s with response := .value (.word (s.rom.read off ++ s.rom.read (off + 1) ++
          s.rom.read (off + 2) ++ s.rom.read (off + 3))) }) ∧
    (a.toNat % 2 = 0 → off + 2 ≤ s.config.romSize →
      exec (.dmaRh a) s = .next { s with response := .value (.half (s.rom.read off ++ s.rom.read (off + 1))) }) ∧
    (a.toNat % 4 = 0 → s.config.romSize < off + 4 →
      exec (.dmaRw a) s =
        .next { s with draws := s.draws + 1, response := .value (.word (Config.drawWord s.draws)) }) ∧
    (a.toNat % 2 = 0 → s.config.romSize < off + 2 →
      exec (.dmaRh a) s =
        .next { s with draws := s.draws + 1, response := .value (.half (Config.drawHalf s.draws)) })

/-- R117: a bus write of the ROM store while `sdramWritable` puts the value's bytes, most significant first, at the offset,
and no other byte and no other field changes. The offset is the decoder's for the address. -/
def Obligations.RomWritesStoreBigEndianBytes : Prop :=
  ∀ (s : State) (a v : Word) (h : Half) (off : Nat), s.fault = none → s.rom.wf = true → s.sdramWritable = true →
    decodeAddress s.config a = .mapped .rom off →
    (a.toNat % 4 = 0 → off + 4 ≤ s.config.romSize →
      ∃ t, exec (.dmaWw a v) s = .next t ∧
        t.rom.read off ++ t.rom.read (off + 1) ++ t.rom.read (off + 2) ++ t.rom.read (off + 3) = v ∧
        (∀ x, x < off ∨ off + 4 ≤ x → t.rom.read x = s.rom.read x) ∧
        t = { s with rom := t.rom, response := .nothing }) ∧
    (a.toNat % 2 = 0 → off + 2 ≤ s.config.romSize →
      ∃ t, exec (.dmaWh a h) s = .next t ∧
        t.rom.read off ++ t.rom.read (off + 1) = h ∧
        (∀ x, x < off ∨ off + 2 ≤ x → t.rom.read x = s.rom.read x) ∧
        t = { s with rom := t.rom, response := .nothing })

/-- R117, R67: a bus write of the ROM store is discarded while `sdramWritable` is false, and beyond the store. -/
def Obligations.RomWritesAreGatedAndBounded : Prop :=
  ∀ (s : State) (a v : Word) (h : Half) (off : Nat), s.fault = none → decodeAddress s.config a = .mapped .rom off →
    (a.toNat % 4 = 0 → (s.sdramWritable = false ∨ s.config.romSize < off + 4) →
      exec (.dmaWw a v) s = .next { s with response := .nothing }) ∧
    (a.toNat % 2 = 0 → (s.sdramWritable = false ∨ s.config.romSize < off + 2) →
      exec (.dmaWh a h) s = .next { s with response := .nothing })

/-- R114, R118, R60: an aligned read of an external device is a draw and is not logged; an aligned write appends the device,
the address, the offset and the value to `devLog`. -/
def Obligations.ExternalDevicesDrawAndLog : Prop :=
  ∀ (s : State) (a v : Word) (h : Half) (dev : Device) (off : Nat), s.fault = none →
    decodeAddress s.config a = .mapped dev off → dev ≠ .cfg → dev ≠ .rom →
    (a.toNat % 4 = 0 →
      exec (.dmaRw a) s =
        .next { s with draws := s.draws + 1, response := .value (.word (Config.drawWord s.draws)) } ∧
      exec (.dmaWw a v) s =
        .next { s with devLog := s.devLog ++ [⟨dev, a, off, .word v⟩], response := .nothing }) ∧
    (a.toNat % 2 = 0 →
      exec (.dmaRh a) s =
        .next { s with draws := s.draws + 1, response := .value (.half (Config.drawHalf s.draws)) } ∧
      exec (.dmaWh a h) s =
        .next { s with devLog := s.devLog ++ [⟨dev, a, off, .half h⟩], response := .nothing })

/-! ## The register file -/

/-- R84, R161: the four registers of the block, read by DMA and, while not busy, by the CPU. -/
def Obligations.RegisterBlockReads : Prop :=
  ∀ (s : State), s.fault = none → s.config.windows.wf = true →
    let c := s.config
    exec (.dmaRw (blockAddress c 0x0)) s = .next { s with response := .value (.word s.status) } ∧
    exec (.dmaRw (blockAddress c 0x4)) s = .next { s with response := .value (.word s.data0) } ∧
    exec (.dmaRw (blockAddress c 0x8)) s = .next { s with response := .value (.word s.data1) } ∧
    exec (.dmaRw (blockAddress c 0xC)) s = .next { s with response := .value (.word c.versionMagic) } ∧
    (s.busy = false →
      exec (.cpuRw (blockAddress c 0x0)) s = .next { s with response := .valueAndCycles s.status c.tRead } ∧
      exec (.cpuRw (blockAddress c 0x4)) s = .next { s with response := .valueAndCycles s.data0 c.tRead } ∧
      exec (.cpuRw (blockAddress c 0x8)) s = .next { s with response := .valueAndCycles s.data1 c.tRead } ∧
      exec (.cpuRw (blockAddress c 0xC)) s = .next { s with response := .valueAndCycles c.versionMagic c.tRead })

/-- R162: a Word write to +0x00 stores the word and runs its command, exactly as the command presented by itself; to +0x4 and
+0x8 it sets the data register; to +0xC it is ignored. A CPU-class write while not busy has the same effect, and starts the
busy period with it (R120, R142, R143, R166); where the command faults, it records that fault alone. -/
def Obligations.RegisterBlockWrites : Prop :=
  ∀ (s : State) (v : Word), s.fault = none → s.config.windows.wf = true →
    let c := s.config
    exec (.dmaWw (blockAddress c 0x0) v) s = exec (decodeCommand c v) s ∧
    exec (.dmaWw (blockAddress c 0x4) v) s = .next { s with data0 := v, response := .nothing } ∧
    exec (.dmaWw (blockAddress c 0x8) v) s = .next { s with data1 := v, response := .nothing } ∧
    exec (.dmaWw (blockAddress c 0xC) v) s = .next { s with response := .nothing } ∧
    (s.busy = false →
      let busyWith (t : State) : State :=
        { t with busy := true, latch := v, pending := some c.tWrite, response := .cycles c.tWchg }
      (∃ t, exec (decodeCommand c v) s = .next t ∧
        exec (.cpuWw (blockAddress c 0x0) v) s = .next (if t.fault = none then busyWith t else t)) ∧
      exec (.cpuWw (blockAddress c 0x4) v) s = .next (busyWith { s with data0 := v }) ∧
      exec (.cpuWw (blockAddress c 0x8) v) s = .next (busyWith { s with data1 := v }) ∧
      exec (.cpuWw (blockAddress c 0xC) v) s = .next (busyWith s))

/-! ## The busy/latch controller -/

/-- R141, R146: while busy `readWord` force-finishes the pending write and returns the latch and the remaining cycles, whatever
the address; otherwise it is `BusRead(Word, addr)` with the charge T_READ. That a busy read with nothing pending, which no run
reaches, leaves `busy` set is the model's reading (DEDUCED, entry 19). -/
def Obligations.ReadWordGoesThroughTheGate : Prop :=
  ∀ (s : State) (a : Word), s.fault = none →
    (s.busy = true →
      (∀ m, s.pending = some m →
        exec (.cpuRw a) s =
          .next { s with busy := false, pending := none, response := .valueAndCycles s.latch m }) ∧
      (s.pending = none → exec (.cpuRw a) s = .next { s with response := .valueAndCycles s.latch 0 })) ∧
    (s.busy = false →
      (∀ v t, busRead .word a s = .ok (.word v, t) →
        exec (.cpuRw a) s = .next { t with response := .valueAndCycles v s.config.tRead }) ∧
      (∀ k, busRead .word a s = .error k → exec (.cpuRw a) s = .next { s with fault := some k }) ∧
      (∀ v t, busRead .word a s ≠ .ok (.half v, t)))

/-- R142, R143: while busy `writeWord` changes nothing and charges T_WCHG; otherwise it sets `busy`, `latch` and `pending` and
does `BusWrite(Word, addr, v)` in the same step; if that write would fault, only the fault is recorded. -/
def Obligations.WriteWordGoesThroughTheGate : Prop :=
  ∀ (s : State) (a v : Word), s.fault = none →
    (s.busy = true → exec (.cpuWw a v) s = .next { s with response := .cycles s.config.tWchg }) ∧
    (s.busy = false →
      (∀ t, busWrite a (.word v) s = .ok t →
        exec (.cpuWw a v) s =
          .next { t with
            busy := true, latch := v, pending := some s.config.tWrite, response := .cycles s.config.tWchg }) ∧
      (∀ k, busWrite a (.word v) s = .error k → exec (.cpuWw a v) s = .next { s with fault := some k }))

/-- R148: a CPU write that is accepted, fewer than T_WRITE cycles, and then a CPU read of any address: the read returns the
written value, clears `busy` and charges the remaining cycles. -/
def Obligations.WriteThenReadReturnsTheLatch : Prop :=
  ∀ (s t u : State) (a b v : Word) (n : Nat), s.busy = false → n < s.config.tWrite →
    exec (.cpuWw a v) s = .next t → t.fault = none → exec (.advance n) t = .next u →
    ∃ w, exec (.cpuRw b) u = .next w ∧ w.response = .valueAndCycles v (s.config.tWrite - n) ∧ w.busy = false ∧
      w.pending = none

/-- R149: a CPU write issued while busy leaves every state field unchanged, `latch` and `pending` among them, whatever its
address; only the charge is returned. So does a second write right after an accepted one, or fewer than T_WRITE cycles later:
the first one's value and what is left of its count stay. -/
def Obligations.SecondWriteWhileBusyIsDropped : Prop :=
  (∀ (s : State) (b w : Word), s.fault = none → s.busy = true →
    exec (.cpuWw b w) s = .next { s with response := .cycles s.config.tWchg }) ∧
  ∀ (s t : State) (a b v w : Word), s.busy = false → exec (.cpuWw a v) s = .next t → t.fault = none →
    (exec (.cpuWw b w) t = .next { t with response := .cycles t.config.tWchg } ∧ t.latch = v ∧
      t.pending = some s.config.tWrite) ∧
    ∀ n, n < s.config.tWrite →
      ∃ u, exec (.advance n) t = .next u ∧ u.latch = v ∧ u.pending = some (s.config.tWrite - n) ∧
        exec (.cpuWw b w) u = .next { u with response := .cycles u.config.tWchg }

/-- R145: `n` cycles elapse; a completion that falls due clears `pending` and `busy`; `latch` is not changed. -/
def Obligations.AdvanceCountsDown : Prop :=
  ∀ (s : State) (n : Nat), s.fault = none →
    (s.pending = none → exec (.advance n) s = .next { s with response := .nothing }) ∧
    (∀ m, s.pending = some m → m ≤ n →
      exec (.advance n) s = .next { s with pending := none, busy := false, response := .nothing }) ∧
    (∀ m, s.pending = some m → n < m →
      exec (.advance n) s = .next { s with pending := some (m - n), response := .nothing })

/-- R145, R253: cycles add up: two advances in a row are one advance of the sum. -/
def Obligations.AdvancesAddUp : Prop :=
  ∀ (s t : State) (m n : Nat), exec (.advance m) s = .next t → exec (.advance n) t = exec (.advance (m + n)) s

/-- R144, R146: `forceFinish` drains the pending completion at once and returns the cycles remaining, or returns 0 and changes
nothing with none pending; `isBusy` returns `busy` and `latchedValue` returns `latch`, and neither changes the block's state. -/
def Obligations.HostOperationsOnTheController : Prop :=
  ∀ (s : State), s.fault = none →
    (∀ m, s.pending = some m →
      exec .forceFinish s = .next { s with pending := none, busy := false, response := .cycles m }) ∧
    (s.pending = none → exec .forceFinish s = .next { s with response := .cycles 0 }) ∧
    exec .isBusy s = .next { s with response := .flag s.busy } ∧
    exec .latchedValue s = .next { s with response := .latched s.latch }

/-- R151: the DMA-class transactions neither read nor write `busy`, `latch` and `pending`: from a state with other values
there they do the same, and leave those values. -/
def Obligations.DmaBypassesTheGate : Prop :=
  ∀ (s t : State) (i : Instr) (b : Bool) (l : Word) (p : Option Nat),
    (∃ a v h, i = .dmaRh a ∨ i = .dmaRw a ∨ i = .dmaWh a h ∨ i = .dmaWw a v) →
    exec i s = .next t →
    exec i { s with busy := b, latch := l, pending := p } = .next { t with busy := b, latch := l, pending := p }

/-! ## The command engine. Each command is the raw write of its word `hi ++ code` to +0x00 (entry 2). -/

/-- R181, R189: the transmit-ready query returns `transmitReady` in `data[0]` and clears status; the receive-busy query returns
`receiveBusy` there and leaves the command word in `status`. -/
def Obligations.FlagQueriesAnswer : Prop :=
  ∀ (s : State) (hi : BitVec 24), s.fault = none →
    exec (.txReady hi) s =
      .next { s with data0 := if s.transmitReady then 1#32 else 0#32, status := 0#32, response := .nothing } ∧
    exec (.rxBusy hi) s =
      .next { s with
        status := hi ++ s.config.commands.rxBusy
        data0 := if s.receiveBusy then 1#32 else 0#32
        response := .nothing }

/-- R182, R90: the ready word is bit 31 `receiveBusy`, bit 0 ready; a ready event's result goes to `data[1]` and
`receiveReady` is cleared; the cache is always zeroed; `status` keeps the command word. -/
def Obligations.ReceiveReadyQueryAnswers : Prop :=
  ∀ (s : State) (hi : BitVec 24), s.fault = none →
    exec (.rxReady hi) s =
      .next { s with
        status := hi ++ s.config.commands.rxReady
        data0 := BitVec.ofBool s.receiveBusy ++ 0#30 ++ BitVec.ofBool s.receiveReady
        data1 := if s.receiveReady then s.pendingResult else s.data1
        receiveReady := false
        pendingResult := 0#32
        response := .nothing }

/-- R268: a receive-ready query right after another finds nothing: no stale re-delivery, and `data[1]` stays. -/
def Obligations.EventIsDeliveredOnce : Prop :=
  ∀ (s t : State) (hi lo : BitVec 24), s.receiveBusy = false → exec (.rxReady hi) s = .next t → t.fault = none →
    exec (.rxReady lo) t =
      .next { t with status := lo ++ t.config.commands.rxReady, data0 := 0#32, response := .nothing }

/-- R243: TransferRange is raised by a transfer command whose length exceeds the staging buffer, whose rom range leaves the
store, with the ROM absent, or, for a legacy variant, with an address below the CART_ROM window; nothing else changes. -/
def Obligations.TransferRangeFaults : Prop :=
  ∀ (s : State) (hi : BitVec 24), s.fault = none →
    let l := s.data0.toNat
    let a := s.data1.toNat
    let low := s.config.windows.cartRom
    let f := Host.Outcome.next { s with fault := some (.transferRange s.data0 s.data1) }
    (s.config.romPresent = false ∨ 512 < l ∨ s.config.romSize < a + l →
      exec (.txData hi) s = f ∧ exec (.rxData hi) s = f) ∧
    (s.config.romPresent = false ∨ a < low ∨ 512 < l ∨ s.config.romSize < a - low + 8 + l →
      exec (.txDataLegacy hi) s = f) ∧
    (s.config.romPresent = false ∨ a < low ∨ 512 < l ∨ s.config.romSize < a - low + l →
      exec (.rxDataLegacy hi) s = f)

/-- R185: a generic transmit in range copies the L bytes to `staging[0 .. L)`; with no byte, or a first byte of no known type,
it makes no request and clears status. -/
def Obligations.GenericTransmitWithoutRequest : Prop :=
  ∀ (s : State) (hi : BitVec 24), s.fault = none →
    let l := s.data0.toNat
    let a := s.data1.toNat
    s.config.romPresent = true → l ≤ 512 → a + l ≤ s.config.romSize →
    (l = 0 ∨ s.rom.read a ∉ s.config.headers.all) →
    exec (.txData hi) s =
      .next { s with
        staging := s.rom.readBytes a l ++ s.staging.drop l
        transmitReady := true
        status := 0#32
        response := .nothing }

/-- R185, R184, R87: a generic transmit in range whose first byte is a header type makes that request with the other L - 1
bytes, and then finishes with the request's outcome. The header codes are pairwise distinct. -/
def Obligations.GenericTransmitMakesTheRequest : Prop :=
  ∀ (s : State) (hi : BitVec 24) (n : Nat) (h : HeaderType), s.fault = none →
    let a := s.data1.toNat
    s.data0.toNat = n + 1 → s.config.romPresent = true → n + 1 ≤ 512 → a + (n + 1) ≤ s.config.romSize →
    let k := s.config.headers
    let b := s.rom.read a
    k.all.Nodup →
    ((b = k.connect ∧ h = .connect) ∨ (b = k.server ∧ h = .server) ∨ (b = k.send ∧ h = .send) ∨
      (b = k.text ∧ h = .text)) →
    exec (.txData hi) s =
      let r := netDispatch h (s.rom.readBytes (a + 1) n)
        { s with
          status := hi ++ s.config.commands.txData
          staging := s.rom.readBytes a (n + 1) ++ s.staging.drop (n + 1)
          transmitReady := false }
      .next { transmitFinish r.1 r.2 with response := .nothing }

/-- R186, R242, R248: the legacy transmit's checks after the range check, in their order, each raised before any write. -/
def Obligations.LegacyTransmitChecksInOrder : Prop :=
  ∀ (s : State) (hi : BitVec 24), s.fault = none →
    let l := s.data0.toNat
    let a := s.data1.toNat
    let o := a - s.config.windows.cartRom
    let sig := s.rom.read o ++ s.rom.read (o + 1) ++ s.rom.read (o + 2) ++ s.rom.read (o + 3)
    let t := s.rom.read (o + 4)
    let size := s.rom.read (o + 5) ++ s.rom.read (o + 6) ++ s.rom.read (o + 7)
    s.config.romPresent = true → s.config.windows.cartRom ≤ a → l ≤ 512 → o + 8 + l ≤ s.config.romSize →
    (sig ≠ s.config.legacySig →
      exec (.txDataLegacy hi) s = .next { s with fault := some (.badSignature s.data1) }) ∧
    (sig = s.config.legacySig → l < size.toNat →
      exec (.txDataLegacy hi) s = .next { s with fault := some (.oversizePayload size s.data0) }) ∧
    (sig = s.config.legacySig → size.toNat ≤ l → t ∉ s.config.headers.all →
      exec (.txDataLegacy hi) s = .next { s with fault := some (.unknownHeader t) })

/-- R186, R88, R87: a legacy transmit that passes its checks copies the L bytes at `o + 8` to `staging[0 .. L)`, makes the header's
request with the first `size` of them, and finishes with the request's outcome. The header codes are pairwise distinct. -/
def Obligations.LegacyTransmitMakesTheRequest : Prop :=
  ∀ (s : State) (hi : BitVec 24) (h : HeaderType), s.fault = none →
    let l := s.data0.toNat
    let a := s.data1.toNat
    let o := a - s.config.windows.cartRom
    let size := s.rom.read (o + 5) ++ s.rom.read (o + 6) ++ s.rom.read (o + 7)
    s.config.romPresent = true → s.config.windows.cartRom ≤ a → l ≤ 512 → o + 8 + l ≤ s.config.romSize →
    s.rom.read o ++ s.rom.read (o + 1) ++ s.rom.read (o + 2) ++ s.rom.read (o + 3) = s.config.legacySig →
    size.toNat ≤ l →
    let k := s.config.headers
    let b := s.rom.read (o + 4)
    k.all.Nodup →
    ((b = k.connect ∧ h = .connect) ∨ (b = k.server ∧ h = .server) ∨ (b = k.send ∧ h = .send) ∨
      (b = k.text ∧ h = .text)) →
    exec (.txDataLegacy hi) s =
      let r := netDispatch h (s.rom.readBytes (o + 8) size.toNat)
        { s with
          status := hi ++ s.config.commands.txDataLegacy
          staging := s.rom.readBytes (o + 8) l ++ s.staging.drop l
          transmitReady := false }
      .next { transmitFinish r.1 r.2 with response := .nothing }

/-- R187, R188: a receive in range writes `staging[0 .. L)` into `rom` from the offset on, whatever `sdramWritable` is; every
other byte and every other field but `status`, which keeps the command word, is unchanged. The offset is A for the generic
variant and A - CART_ROM.low for the legacy one. -/
def Obligations.ReceiveCopiesTheStagingBuffer : Prop :=
  ∀ (s : State) (hi : BitVec 24), s.fault = none → s.rom.wf = true → s.staging.length = 512 →
    s.config.romPresent = true →
    let l := s.data0.toNat
    let a := s.data1.toNat
    let o := a - s.config.windows.cartRom
    l ≤ 512 →
    (a + l ≤ s.config.romSize →
      ∃ t, exec (.rxData hi) s = .next t ∧
        (∀ i, i < l → s.staging[i]? = some (t.rom.read (a + i))) ∧
        (∀ x, x < a ∨ a + l ≤ x → t.rom.read x = s.rom.read x) ∧
        t = { s with
          rom := t.rom, status := hi ++ s.config.commands.rxData, receiveBusy := false, response := .nothing }) ∧
    (s.config.windows.cartRom ≤ a → o + l ≤ s.config.romSize →
      ∃ t, exec (.rxDataLegacy hi) s = .next t ∧
        (∀ i, i < l → s.staging[i]? = some (t.rom.read (o + i))) ∧
        (∀ x, x < o ∨ o + l ≤ x → t.rom.read x = s.rom.read x) ∧
        t = { s with
          rom := t.rom, status := hi ++ s.config.commands.rxDataLegacy, receiveBusy := false, response := .nothing })

/-- R190: the configuration update sets `sdramWritable` to (value ≠ 0) for the one known identifier, and has no effect for any
other; `status` keeps the command word. -/
def Obligations.ConfigurationUpdate : Prop :=
  ∀ (s : State) (hi : BitVec 24), s.fault = none →
    (s.data0 = s.config.optSdramWritable →
      exec (.config hi) s =
        .next { s with
          status := hi ++ s.config.commands.config
          sdramWritable := decide (s.data1 ≠ 0#32)
          response := .nothing }) ∧
    (s.data0 ≠ s.config.optSdramWritable →
      exec (.config hi) s = .next { s with status := hi ++ s.config.commands.config, response := .nothing })

/-- R191: an unrecognized command clears status and does nothing else. -/
def Obligations.UnrecognizedClearsStatusOnly : Prop :=
  ∀ (s : State) (v : Word), s.fault = none →
    exec (.unrecognized v) s = .next { s with status := 0#32, response := .nothing }

/-- R184: on success the transmit restores `transmitReady` and clears status; on failure it restores `transmitReady` and sets
bit 28 of `status`, every other bit of the command word staying. -/
def Obligations.TransmitFinishReportsTheOutcome : Prop :=
  ∀ (s : State),
    transmitFinish true s = { s with transmitReady := true, status := 0#32 } ∧
    transmitFinish false s = { s with transmitReady := true, status := (transmitFinish false s).status } ∧
    ∀ i, i < 32 → (transmitFinish false s).status.getLsbD i = (i == 28 || s.status.getLsbD i)

/-! ## The network bridge -/

/-- R212: a connect request ends the previous endpoint and succeeds when its draw is true; on success the endpoint, the
staging bytes, the length and the flag are set from the bytes before the first ':'; on failure nothing but the endpoint
changes. `s.draws + 1` says that one draw was taken (entry 8). -/
def Obligations.ConnectRequest : Prop :=
  ∀ (s : State) (p h q : List Byte), (∀ b ∈ h, b ≠ 0x3A#8) → (p = h ∨ p = h ++ 0x3A#8 :: q) →
    netDispatch .connect p s =
      (Config.drawBool s.draws,
        if Config.drawBool s.draws then
          { s with
            draws := s.draws + 1
            endpoint := some (.client h)
            staging := h ++ s.staging.drop h.length
            pendingResult := BitVec.ofNat 32 h.length
            receiveReady := true }
        else { s with draws := s.draws + 1, endpoint := none })

/-- R213, R214, R215: start-server ends the previous endpoint, and binds or fails by its draw, with no endpoint on failure; a
send through an endpoint is logged, and without one does nothing; a text request changes nothing. -/
def Obligations.ServeSendAndTextRequests : Prop :=
  ∀ (s : State) (p : List Byte),
    netDispatch .server p s =
      (Config.drawBool s.draws,
        { s with
          draws := s.draws + 1
          endpoint := if Config.drawBool s.draws then some (.server p) else none }) ∧
    netDispatch .send p s =
      (true, { s with outLog := s.outLog ++ (match s.endpoint with | none => [] | some e => [⟨e, p⟩]) }) ∧
    netDispatch .text p s = (true, s)

/-- R216, R217: with an endpoint, an inbound payload of at most 512 bytes fills the staging buffer's front, records its length
and sets `receiveReady`, replacing an earlier event (R219); without an endpoint, or longer, there is no such step. -/
def Obligations.InboundPostsTheEvent : Prop :=
  ∀ (s : State) (p : List Byte), s.fault = none →
    (∀ e, s.endpoint = some e → p.length ≤ 512 →
      exec (.inbound p) s =
        .next { s with
          staging := p ++ s.staging.drop p.length
          pendingResult := BitVec.ofNat 32 p.length
          receiveReady := true
          response := .nothing }) ∧
    (s.endpoint = none → p.length ≤ 512 → exec (.inbound p) s = .refused .inboundNotEnabled) ∧
    (512 < p.length → exec (.inbound p) s = .refused (.inboundTooLong p.length))

/-- R222, R246: a generic transmit that asks for a connection or a server. If its draw fails, no endpoint is left, ERR is set,
nothing has been received, and no inbound step is enabled; if its draw succeeds, there is an endpoint and status is clear. -/
def Obligations.FailedRequestLeavesNoEndpoint : Prop :=
  ∀ (s : State) (hi : BitVec 24), s.fault = none →
    let a := s.data1.toNat
    1 ≤ s.data0.toNat → s.data0.toNat ≤ 512 → a + s.data0.toNat ≤ s.config.romSize → s.config.romPresent = true →
    (s.rom.read a = s.config.headers.connect ∨ s.rom.read a = s.config.headers.server) →
    ∃ t, exec (.txData hi) s = .next t ∧ t.fault = none ∧ t.transmitReady = true ∧
      (Config.drawBool s.draws = false →
        t.endpoint = none ∧ t.status.getLsbD 28 = true ∧ t.receiveReady = s.receiveReady ∧
        ∀ p, p.length ≤ 512 → exec (.inbound p) t = .refused .inboundNotEnabled) ∧
      (Config.drawBool s.draws = true → t.endpoint ≠ none ∧ t.status = 0#32)

/-- R221: a start-server, a send and a connect request in this order, for every outcome of the two draws: with the server
bound, the send is logged for it; with the connection made, the event is ready with the host string. -/
def Obligations.ServerSendConnectSequence : Prop :=
  ∀ (s : State) (port msg h q : List Byte), (∀ b ∈ h, b ≠ 0x3A#8) → h.length ≤ 512 →
    let bound := Config.drawBool s.draws
    let connected := Config.drawBool (s.draws + 1)
    let r1 := netDispatch .server port s
    let r2 := netDispatch .send msg r1.2
    let r3 := netDispatch .connect (h ++ 0x3A#8 :: q) r2.2
    r1.1 = bound ∧ r1.2.endpoint = (if bound then some (.server port) else none) ∧
    r2.1 = true ∧ r2.2.outLog = s.outLog ++ (if bound then [⟨.server port, msg⟩] else []) ∧
    r3.1 = connected ∧ r3.2.endpoint = (if connected then some (.client h) else none) ∧
    (connected = true → r3.2.receiveReady = true ∧ r3.2.pendingResult.toNat = h.length ∧
      r3.2.staging.take h.length = h)

/-! ## Reset, faults and the whole machine -/

/-- R260: RESET sets every field to its reset value and leaves the ROM store and the configuration. -/
def Obligations.ResetRestoresEveryField : Prop :=
  ∀ (s : State), s.fault = none →
    ∃ t, exec .reset s = .next t ∧
      t.busy = false ∧ t.latch = 0#32 ∧ t.pending = none ∧ t.status = 0#32 ∧ t.data0 = 0#32 ∧ t.data1 = 0#32 ∧
      t.transmitReady = true ∧ t.receiveReady = false ∧ t.receiveBusy = false ∧
      t.staging = List.replicate 512 0#8 ∧ t.pendingResult = 0#32 ∧ t.sdramWritable = false ∧ t.endpoint = none ∧
      t.outLog = [] ∧ t.devLog = [] ∧ t.fault = none ∧
      t.rom = s.rom ∧ t.config = s.config

/-- R249: a step that raises a fault writes nothing but `fault`, whatever the instruction. -/
def Obligations.FaultsArePrecise : Prop :=
  ∀ (i : Instr) (s t : State), exec i s = .next t → t.fault ≠ none → t = { s with fault := t.fault }

/-- R240, R261: once `fault ≠ none` no transaction of either agent has a step, RESET and INBOUND included, and the machine has
none. -/
def Obligations.NoStepAfterAFault : Prop :=
  ∀ (s : State) (k : FaultKind), s.fault = some k →
    (∀ i, exec i s = .fault (.halted k)) ∧ step s = .fault (.halted k)

/-- R242: ProtocolFatal (codes 1 to 3 of R241) is raised in the legacy transmit path only: by the command itself, or by an
accepted Word write of a word with its code to the command register. -/
def Obligations.ProtocolFatalOnlyInTheLegacyTransmit : Prop :=
  ∀ (i : Instr) (s t : State) (k : FaultKind), exec i s = .next t → t.fault = some k → k.code ≤ 3 →
    (∃ hi, i = .txDataLegacy hi) ∨
    ∃ v, s.WritesCommand i v ∧ commandOf s.config.commands (v.setWidth 8) = .txDataLegacy

/-- No rule of the spec stops a transaction of the guest side: from a running state every instruction but INBOUND has a next
state. -/
def Obligations.GuestTransactionsAlwaysStep : Prop :=
  ∀ (i : Instr) (s : State), s.fault = none → (∀ p, i ≠ .inbound p) → ∃ t, exec i s = .next t

/-- A step takes the oldest presented record, decodes it and runs it (R12, R22); with nothing presented it does nothing (R262;
the model's choice, entry 10); a record that spells no transaction is refused by name (R82). -/
def Obligations.StepRunsTheDecodedTransaction : Prop :=
  ∀ (s : State), s.fault = none →
    (∀ p rest i, s.inputs = p :: rest → decode s.config p = .ok i → step s = exec i { s with inputs := rest }) ∧
    (∀ p rest e, s.inputs = p :: rest → decode s.config p = .error e → step s = .refused (.noTransaction e)) ∧
    (s.inputs = [] → step s = .next s)

/-- The invariant of Safety.lean holds at reset. -/
def Obligations.ResetMeetsTheInvariant : Prop := State.reset.Inv

/-- The invariant of Safety.lean is kept by every step, from every state that meets it (R25, R192, R193, R182, R217). -/
def Obligations.EveryStepKeepsTheInvariant : Prop :=
  ∀ (s t : State), s.Inv → step s = .next t → t.Inv

/-- R25: `busy = true` if and only if `pending ≠ none`; every instruction keeps it. -/
def Obligations.BusyIffPendingIsKept : Prop :=
  (State.reset.busy = true ↔ State.reset.pending ≠ none) ∧
  ∀ (i : Instr) (s t : State), (s.busy = true ↔ s.pending ≠ none) → exec i s = .next t →
    (t.busy = true ↔ t.pending ≠ none)

/-- R192, R193: `transmitReady = true` and `receiveBusy = false` hold at reset and after every instruction from a state where
they hold, so from such a state the transmit-ready query answers 1, the receive-busy query 0, and bit 31 of the ready word
is 0. -/
def Obligations.BracketingFlagsAreNeverSeen : Prop :=
  (State.reset.transmitReady = true ∧ State.reset.receiveBusy = false) ∧
  ∀ (s : State) (hi : BitVec 24), s.fault = none → s.transmitReady = true → s.receiveBusy = false →
    (∀ i t, exec i s = .next t → t.transmitReady = true ∧ t.receiveBusy = false) ∧
    (∃ t, exec (.txReady hi) s = .next t ∧ t.data0 = 1#32) ∧
    (∃ t, exec (.rxBusy hi) s = .next t ∧ t.data0 = 0#32) ∧
    (∃ t, exec (.rxReady hi) s = .next t ∧ t.data0.getLsbD 31 = false)

/-- R37, R38: the two logs only grow, whatever the instruction; RESET alone empties them. -/
def Obligations.LogsOnlyGrow : Prop :=
  ∀ (i : Instr) (s t : State), i ≠ .reset → exec i s = .next t →
    (∃ sends, t.outLog = s.outLog ++ sends) ∧ (∃ writes, t.devLog = s.devLog ++ writes)

/-- R40, R261: no instruction changes the configuration. (That none presents or takes a record, and that draws are never
given back, is about the model's own fields.) -/
def Obligations.ConfigurationIsFixed : Prop :=
  ∀ (i : Instr) (s t : State), exec i s = .next t →
    t.config = s.config ∧ t.inputs = s.inputs ∧ s.draws ≤ t.draws

/-- R34: `sdramWritable` is changed by the configuration-update command only (presented by itself, or by an accepted Word write
to the command register), and by RESET. -/
def Obligations.OnlyTheConfigurationUpdateChangesTheGate : Prop :=
  ∀ (i : Instr) (s t : State), exec i s = .next t → t.sdramWritable ≠ s.sdramWritable →
    i = .reset ∨ (∃ hi, i = .config hi) ∨
    ∃ v, s.WritesCommand i v ∧ commandOf s.config.commands (v.setWidth 8) = .config

/-- R26 (D29): the block never sets bit 30 of `status`, CPU-busy, on its own: it is set after an instruction only if it was
set before, or was set in the word the instruction wrote to the command register (its own command word, or the value of an
accepted Word write to that register). -/
def Obligations.CpuBusyBitIsOnlyEverWritten : Prop :=
  ∀ (i : Instr) (s t : State), exec i s = .next t → t.status.getLsbD 30 = true →
    s.status.getLsbD 30 = true ∨
    ∃ v : Word, v.getLsbD 30 = true ∧
      (encode s.config i = .command v ∨ s.WritesCommand i v)

/-- R93, R264: the scripts SETD0 and SETD1 one after the other, run by the machine from a state that is not busy: both writes
are accepted, because each wait lets the write before it complete, and the controller ends idle with the last value in the
latch. -/
def Obligations.SetArgumentScriptsRun : Prop :=
  ∀ (s : State) (d0 d1 : Word), s.fault = none → s.busy = false → s.config.windows.wf = true →
    let script := Pseudo.expand s.config (.setD0 d0) ++ Pseudo.expand s.config (.setD1 d1)
    Host.Core.run Sys2Proof.core script.length { s with inputs := present s.config script } =
      .next { s with
        data0 := d0, data1 := d1, latch := d1, busy := false, pending := none, inputs := [], response := .nothing }

/-- R194: after a generic transmit of N bytes from offset A that is no connect request, a generic receive of the same N at the
same A, from any later state that has the transmitted bytes in the staging buffer and the same arguments, leaves the bytes
`rom[A .. A+N)` as they were before the transmit. -/
def Obligations.TransmitReceiveRoundTrip : Prop :=
  ∀ (s t u v : State) (hi lo : BitVec 24),
    exec (.txData hi) s = .next t → t.fault = none → s.rom.read s.data1.toNat ≠ s.config.headers.connect →
    u.staging.take s.data0.toNat = t.staging.take s.data0.toNat → u.data0 = t.data0 → u.data1 = t.data1 →
    u.rom.wf = true → exec (.rxData lo) u = .next v → v.fault = none →
    ∀ i, i < s.data0.toNat → v.rom.read (s.data1.toNat + i) = s.rom.read (s.data1.toNat + i)
end

