-- ==== Sys2Proof/Laws/Memory.lean ====
section
/-!
SUPPORT. The laws of the byte store: read after write, the bytes of a written run, and that every operation keeps the
canonical form and the bound on the offsets.
-/

namespace Sys2Proof.Machine

theorem Memory.read_put_same (a : Nat) (b : Byte) (m : Memory) (h : m.read a = Memory.unlisted) :
    (Memory.put a b m).read a = b := by
  unfold Memory.put
  split
  · simp_all
  · simp [Memory.read]

theorem Memory.read_put_other (a x : Nat) (b : Byte) (m : Memory) (h : x ≠ a) :
    (Memory.put a b m).read x = m.read x := by
  unfold Memory.put
  split
  · rfl
  · simp [Memory.read, Ne.symm h]

/-- Below every listed offset a store reads as unlisted. -/
theorem Memory.read_of_wfFrom (m : Memory) (lo a : Nat) (hm : Memory.wfFrom lo m = true) (ha : a < lo) :
    m.read a = Memory.unlisted := by
  induction m generalizing lo with
  | nil => rfl
  | cons c m ih =>
    simp only [Memory.wfFrom, Bool.and_eq_true, decide_eq_true_eq] at hm
    obtain ⟨⟨h1, _⟩, h3⟩ := hm
    have hne : c.1 ≠ a := by omega
    simp only [Memory.read, if_neg hne]
    exact ih (c.1 + 1) h3 (by omega)

theorem Memory.wfFrom_mono (m : Memory) (lo lo' : Nat) (hm : Memory.wfFrom lo m = true) (h : lo' ≤ lo) :
    Memory.wfFrom lo' m = true := by
  cases m with
  | nil => rfl
  | cons c m =>
    simp only [Memory.wfFrom, Bool.and_eq_true, decide_eq_true_eq] at hm ⊢
    exact ⟨⟨by omega, hm.1.2⟩, hm.2⟩

theorem Memory.wfFrom_put (m : Memory) (lo a : Nat) (b : Byte) (hm : Memory.wfFrom (a + 1) m = true) (ha : lo ≤ a) :
    Memory.wfFrom lo (Memory.put a b m) = true := by
  unfold Memory.put
  split
  · exact Memory.wfFrom_mono m _ _ hm (by omega)
  · simp [Memory.wfFrom, *]

/-- A write keeps the canonical form. -/
theorem Memory.wfFrom_write (m : Memory) (lo a : Nat) (b : Byte) (hm : Memory.wfFrom lo m = true) (ha : lo ≤ a) :
    Memory.wfFrom lo (m.write a b) = true := by
  induction m generalizing lo with
  | nil => exact Memory.wfFrom_put [] lo a b rfl ha
  | cons c m ih =>
    have hm' := hm
    simp only [Memory.wfFrom, Bool.and_eq_true, decide_eq_true_eq] at hm'
    obtain ⟨⟨h1, h2⟩, h3⟩ := hm'
    unfold Memory.write
    split
    · apply Memory.wfFrom_put _ _ _ _ _ ha
      simp [Memory.wfFrom, h2, h3]
      omega
    · split
      · subst a
        exact Memory.wfFrom_put m _ _ _ h3 ha
      · simp only [Memory.wfFrom, Bool.and_eq_true, decide_eq_true_eq]
        exact ⟨⟨h1, h2⟩, ih (c.1 + 1) h3 (by omega)⟩

theorem Memory.wf_write (m : Memory) (a : Nat) (b : Byte) (hm : m.wf = true) : (m.write a b).wf = true :=
  Memory.wfFrom_write m 0 a b hm (Nat.zero_le a)

/-- Read after write to the same offset, on a store in canonical form. -/
theorem Memory.read_write_same_of (m : Memory) (lo a : Nat) (b : Byte) (hm : Memory.wfFrom lo m = true) :
    (m.write a b).read a = b := by
  induction m generalizing lo with
  | nil => exact Memory.read_put_same a b [] rfl
  | cons c m ih =>
    have hm' := hm
    simp only [Memory.wfFrom, Bool.and_eq_true, decide_eq_true_eq] at hm'
    obtain ⟨⟨h1, h2⟩, h3⟩ := hm'
    unfold Memory.write
    split
    · apply Memory.read_put_same
      have hne : c.1 ≠ a := by omega
      simp only [Memory.read, if_neg hne]
      exact Memory.read_of_wfFrom m (c.1 + 1) a h3 (by omega)
    · split
      · subst a
        exact Memory.read_put_same _ _ _ (Memory.read_of_wfFrom m (c.1 + 1) c.1 h3 (by omega))
      · next hne => simp only [Memory.read, if_neg (Ne.symm hne)]; exact ih (c.1 + 1) h3

theorem Memory.read_write_same (m : Memory) (a : Nat) (b : Byte) (hm : m.wf = true) : (m.write a b).read a = b :=
  Memory.read_write_same_of m 0 a b hm

/-- A write leaves every other offset alone. -/
theorem Memory.read_write_other (m : Memory) (a x : Nat) (b : Byte) (h : x ≠ a) :
    (m.write a b).read x = m.read x := by
  induction m with
  | nil => exact Memory.read_put_other a x b [] h
  | cons c m ih =>
    unfold Memory.write
    split
    · exact Memory.read_put_other a x b (c :: m) h
    · split
      · next heq =>
        have hne : c.1 ≠ x := by omega
        rw [Memory.read_put_other a x b m h]
        simp only [Memory.read, if_neg hne]
      · simp only [Memory.read, ih]

theorem Memory.wf_writeBytes (m : Memory) (off : Nat) (bs : List Byte) (hm : m.wf = true) :
    (m.writeBytes off bs).wf = true := by
  induction bs generalizing m off with
  | nil => exact hm
  | cons b bs ih => exact ih _ _ (Memory.wf_write m off b hm)

theorem Memory.read_writeBytes_outside (m : Memory) (off x : Nat) (bs : List Byte)
    (h : x < off ∨ off + bs.length ≤ x) : (m.writeBytes off bs).read x = m.read x := by
  induction bs generalizing m off with
  | nil => rfl
  | cons b bs ih =>
    simp only [List.length_cons] at h
    simp only [Memory.writeBytes]
    rw [ih (m.write off b) (off + 1) (by omega), Memory.read_write_other m off x b (by omega)]

/-- Inside a written run an offset reads as the byte written there. -/
theorem Memory.read_writeBytes_inside (m : Memory) (off i : Nat) (bs : List Byte) (hm : m.wf = true)
    (h : i < bs.length) : (m.writeBytes off bs).read (off + i) = bs[i] := by
  induction bs generalizing m off i with
  | nil => simp at h
  | cons b bs ih =>
    simp only [Memory.writeBytes]
    cases i with
    | zero =>
      rw [Memory.read_writeBytes_outside _ _ _ _ (by omega), Nat.add_zero, Memory.read_write_same m off b hm]
      rfl
    | succ i =>
      have h' : i < bs.length := by simpa using h
      have := ih (m.write off b) (off + 1) i (Memory.wf_write m off b hm) h'
      rw [show off + (i + 1) = off + 1 + i by omega, this]
      rfl

@[simp] theorem Memory.length_readBytes (m : Memory) (off n : Nat) : (m.readBytes off n).length = n := by
  induction n generalizing off with
  | zero => rfl
  | succ n ih => simp [Memory.readBytes, ih]

theorem Memory.getElem_readBytes (m : Memory) (off n i : Nat) (h : i < (m.readBytes off n).length) :
    (m.readBytes off n)[i] = m.read (off + i) := by
  induction n generalizing off i with
  | zero => simp at h
  | succ n ih =>
    cases i with
    | zero => rfl
    | succ i =>
      have h' : i < (m.readBytes (off + 1) n).length := by simp at h ⊢; omega
      simp only [Memory.readBytes, List.getElem_cons_succ]
      rw [ih (off + 1) i h', show off + 1 + i = off + (i + 1) by omega]

/-- The bytes read from a written run are the bytes written. -/
theorem Memory.readBytes_writeBytes (m : Memory) (off : Nat) (bs : List Byte) (hm : m.wf = true) :
    (m.writeBytes off bs).readBytes off bs.length = bs := by
  apply List.ext_getElem (by simp)
  intro i h1 h2
  rw [Memory.getElem_readBytes, Memory.read_writeBytes_inside m off i bs hm h2]

theorem Memory.below_cons (n : Nat) (c : Host.Cell) (m : Memory) :
    Memory.below n (c :: m) = true ↔ c.1 < n ∧ Memory.below n m = true := by
  unfold Memory.below
  rw [List.all_cons, Bool.and_eq_true, decide_eq_true_eq]

theorem Memory.below_put (n a : Nat) (b : Byte) (m : Memory) (ha : a < n) (hm : Memory.below n m = true) :
    Memory.below n (Memory.put a b m) = true := by
  unfold Memory.put
  split
  · exact hm
  · exact (Memory.below_cons n (a, b) m).2 ⟨ha, hm⟩

/-- A write below `n` lists nothing at or beyond `n`. -/
theorem Memory.below_write (n a : Nat) (b : Byte) (m : Memory) (ha : a < n) (hm : Memory.below n m = true) :
    Memory.below n (m.write a b) = true := by
  induction m with
  | nil => exact Memory.below_put n a b [] ha rfl
  | cons c m ih =>
    have hc := (Memory.below_cons n c m).1 hm
    unfold Memory.write
    split
    · exact Memory.below_put n a b _ ha hm
    · split
      · exact Memory.below_put n a b _ ha hc.2
      · exact (Memory.below_cons n c _).2 ⟨hc.1, ih hc.2⟩

theorem Memory.below_writeBytes (n off : Nat) (bs : List Byte) (m : Memory) (ho : off + bs.length ≤ n)
    (hm : m.below n = true) : (m.writeBytes off bs).below n = true := by
  induction bs generalizing m off with
  | nil => exact hm
  | cons b bs ih =>
    simp only [List.length_cons] at ho
    exact ih (off + 1) (m.write off b) (by omega) (Memory.below_write n off b m (by omega) hm)

/-- The first byte of a Word's big-endian spelling is bits 31:24, and so on (R59). -/
theorem be32_bytesBe (v : Word) :
    be32 (v.extractLsb' 24 8) (v.extractLsb' 16 8) (v.extractLsb' 8 8) (v.extractLsb' 0 8) = v := by
  unfold be32
  ext i hi
  simp only [BitVec.getElem_append, BitVec.getElem_extractLsb']
  repeat' split
  all_goals (rw [← BitVec.getLsbD_eq_getElem]; congr 1; omega)

theorem be16_bytesBe (v : Half) : be16 (v.extractLsb' 8 8) (v.extractLsb' 0 8) = v := by
  unfold be16
  ext i hi
  simp only [BitVec.getElem_append, BitVec.getElem_extractLsb']
  repeat' split
  all_goals (rw [← BitVec.getLsbD_eq_getElem]; congr 1; omega)

@[simp] theorem length_bytesBe (v : BusValue) : (bytesBe v).length = nbytes (widthOf v) := by cases v <;> rfl

end Sys2Proof.Machine
end

