-- ==== Sys2Proof/Laws/State.lean ====
section
/-!
SUPPORT. One lemma per field for each named update of the state, true by rfl.
-/

namespace Sys2Proof.Machine

/-! Raising a fault (R240, R249): only `fault` changes. -/

@[simp] theorem raise_config (s : State) (k : FaultKind) : (s.raise k).config = s.config := rfl
@[simp] theorem raise_busy (s : State) (k : FaultKind) : (s.raise k).busy = s.busy := rfl
@[simp] theorem raise_latch (s : State) (k : FaultKind) : (s.raise k).latch = s.latch := rfl
@[simp] theorem raise_pending (s : State) (k : FaultKind) : (s.raise k).pending = s.pending := rfl
@[simp] theorem raise_status (s : State) (k : FaultKind) : (s.raise k).status = s.status := rfl
@[simp] theorem raise_data0 (s : State) (k : FaultKind) : (s.raise k).data0 = s.data0 := rfl
@[simp] theorem raise_data1 (s : State) (k : FaultKind) : (s.raise k).data1 = s.data1 := rfl
@[simp] theorem raise_transmitReady (s : State) (k : FaultKind) : (s.raise k).transmitReady = s.transmitReady := rfl
@[simp] theorem raise_receiveReady (s : State) (k : FaultKind) : (s.raise k).receiveReady = s.receiveReady := rfl
@[simp] theorem raise_receiveBusy (s : State) (k : FaultKind) : (s.raise k).receiveBusy = s.receiveBusy := rfl
@[simp] theorem raise_staging (s : State) (k : FaultKind) : (s.raise k).staging = s.staging := rfl
@[simp] theorem raise_pendingResult (s : State) (k : FaultKind) : (s.raise k).pendingResult = s.pendingResult := rfl
@[simp] theorem raise_sdramWritable (s : State) (k : FaultKind) : (s.raise k).sdramWritable = s.sdramWritable := rfl
@[simp] theorem raise_rom (s : State) (k : FaultKind) : (s.raise k).rom = s.rom := rfl
@[simp] theorem raise_endpoint (s : State) (k : FaultKind) : (s.raise k).endpoint = s.endpoint := rfl
@[simp] theorem raise_outLog (s : State) (k : FaultKind) : (s.raise k).outLog = s.outLog := rfl
@[simp] theorem raise_devLog (s : State) (k : FaultKind) : (s.raise k).devLog = s.devLog := rfl
@[simp] theorem raise_fault (s : State) (k : FaultKind) : (s.raise k).fault = some k := rfl
@[simp] theorem raise_inputs (s : State) (k : FaultKind) : (s.raise k).inputs = s.inputs := rfl
@[simp] theorem raise_response (s : State) (k : FaultKind) : (s.raise k).response = s.response := rfl
@[simp] theorem raise_draws (s : State) (k : FaultKind) : (s.raise k).draws = s.draws := rfl

/-! Returning a result: only `response` changes. -/

@[simp] theorem respond_config (s : State) (r : Response) : (s.respond r).config = s.config := rfl
@[simp] theorem respond_busy (s : State) (r : Response) : (s.respond r).busy = s.busy := rfl
@[simp] theorem respond_latch (s : State) (r : Response) : (s.respond r).latch = s.latch := rfl
@[simp] theorem respond_pending (s : State) (r : Response) : (s.respond r).pending = s.pending := rfl
@[simp] theorem respond_status (s : State) (r : Response) : (s.respond r).status = s.status := rfl
@[simp] theorem respond_data0 (s : State) (r : Response) : (s.respond r).data0 = s.data0 := rfl
@[simp] theorem respond_data1 (s : State) (r : Response) : (s.respond r).data1 = s.data1 := rfl
@[simp] theorem respond_transmitReady (s : State) (r : Response) : (s.respond r).transmitReady = s.transmitReady := rfl
@[simp] theorem respond_receiveReady (s : State) (r : Response) : (s.respond r).receiveReady = s.receiveReady := rfl
@[simp] theorem respond_receiveBusy (s : State) (r : Response) : (s.respond r).receiveBusy = s.receiveBusy := rfl
@[simp] theorem respond_staging (s : State) (r : Response) : (s.respond r).staging = s.staging := rfl
@[simp] theorem respond_pendingResult (s : State) (r : Response) : (s.respond r).pendingResult = s.pendingResult := rfl
@[simp] theorem respond_sdramWritable (s : State) (r : Response) : (s.respond r).sdramWritable = s.sdramWritable := rfl
@[simp] theorem respond_rom (s : State) (r : Response) : (s.respond r).rom = s.rom := rfl
@[simp] theorem respond_endpoint (s : State) (r : Response) : (s.respond r).endpoint = s.endpoint := rfl
@[simp] theorem respond_outLog (s : State) (r : Response) : (s.respond r).outLog = s.outLog := rfl
@[simp] theorem respond_devLog (s : State) (r : Response) : (s.respond r).devLog = s.devLog := rfl
@[simp] theorem respond_fault (s : State) (r : Response) : (s.respond r).fault = s.fault := rfl
@[simp] theorem respond_inputs (s : State) (r : Response) : (s.respond r).inputs = s.inputs := rfl
@[simp] theorem respond_response (s : State) (r : Response) : (s.respond r).response = r := rfl
@[simp] theorem respond_draws (s : State) (r : Response) : (s.respond r).draws = s.draws := rfl

/-! The start of an in-flight period (R142). -/

@[simp] theorem beginWrite_config (v : Word) (s : State) : (beginWrite v s).config = s.config := rfl
@[simp] theorem beginWrite_busy (v : Word) (s : State) : (beginWrite v s).busy = true := rfl
@[simp] theorem beginWrite_latch (v : Word) (s : State) : (beginWrite v s).latch = v := rfl
@[simp] theorem beginWrite_pending (v : Word) (s : State) : (beginWrite v s).pending = some s.config.tWrite := rfl
@[simp] theorem beginWrite_status (v : Word) (s : State) : (beginWrite v s).status = s.status := rfl
@[simp] theorem beginWrite_data0 (v : Word) (s : State) : (beginWrite v s).data0 = s.data0 := rfl
@[simp] theorem beginWrite_data1 (v : Word) (s : State) : (beginWrite v s).data1 = s.data1 := rfl
@[simp] theorem beginWrite_transmitReady (v : Word) (s : State) : (beginWrite v s).transmitReady = s.transmitReady := rfl
@[simp] theorem beginWrite_receiveReady (v : Word) (s : State) : (beginWrite v s).receiveReady = s.receiveReady := rfl
@[simp] theorem beginWrite_receiveBusy (v : Word) (s : State) : (beginWrite v s).receiveBusy = s.receiveBusy := rfl
@[simp] theorem beginWrite_staging (v : Word) (s : State) : (beginWrite v s).staging = s.staging := rfl
@[simp] theorem beginWrite_pendingResult (v : Word) (s : State) : (beginWrite v s).pendingResult = s.pendingResult := rfl
@[simp] theorem beginWrite_sdramWritable (v : Word) (s : State) : (beginWrite v s).sdramWritable = s.sdramWritable := rfl
@[simp] theorem beginWrite_rom (v : Word) (s : State) : (beginWrite v s).rom = s.rom := rfl
@[simp] theorem beginWrite_endpoint (v : Word) (s : State) : (beginWrite v s).endpoint = s.endpoint := rfl
@[simp] theorem beginWrite_outLog (v : Word) (s : State) : (beginWrite v s).outLog = s.outLog := rfl
@[simp] theorem beginWrite_devLog (v : Word) (s : State) : (beginWrite v s).devLog = s.devLog := rfl
@[simp] theorem beginWrite_fault (v : Word) (s : State) : (beginWrite v s).fault = s.fault := rfl
@[simp] theorem beginWrite_inputs (v : Word) (s : State) : (beginWrite v s).inputs = s.inputs := rfl
@[simp] theorem beginWrite_response (v : Word) (s : State) : (beginWrite v s).response = s.response := rfl
@[simp] theorem beginWrite_draws (v : Word) (s : State) : (beginWrite v s).draws = s.draws := rfl

/-! Teardown (R211). -/

@[simp] theorem teardown_config (s : State) : (teardown s).config = s.config := rfl
@[simp] theorem teardown_busy (s : State) : (teardown s).busy = s.busy := rfl
@[simp] theorem teardown_latch (s : State) : (teardown s).latch = s.latch := rfl
@[simp] theorem teardown_pending (s : State) : (teardown s).pending = s.pending := rfl
@[simp] theorem teardown_status (s : State) : (teardown s).status = s.status := rfl
@[simp] theorem teardown_data0 (s : State) : (teardown s).data0 = s.data0 := rfl
@[simp] theorem teardown_data1 (s : State) : (teardown s).data1 = s.data1 := rfl
@[simp] theorem teardown_transmitReady (s : State) : (teardown s).transmitReady = s.transmitReady := rfl
@[simp] theorem teardown_receiveReady (s : State) : (teardown s).receiveReady = s.receiveReady := rfl
@[simp] theorem teardown_receiveBusy (s : State) : (teardown s).receiveBusy = s.receiveBusy := rfl
@[simp] theorem teardown_staging (s : State) : (teardown s).staging = s.staging := rfl
@[simp] theorem teardown_pendingResult (s : State) : (teardown s).pendingResult = s.pendingResult := rfl
@[simp] theorem teardown_sdramWritable (s : State) : (teardown s).sdramWritable = s.sdramWritable := rfl
@[simp] theorem teardown_rom (s : State) : (teardown s).rom = s.rom := rfl
@[simp] theorem teardown_endpoint (s : State) : (teardown s).endpoint = none := rfl
@[simp] theorem teardown_outLog (s : State) : (teardown s).outLog = s.outLog := rfl
@[simp] theorem teardown_devLog (s : State) : (teardown s).devLog = s.devLog := rfl
@[simp] theorem teardown_fault (s : State) : (teardown s).fault = s.fault := rfl
@[simp] theorem teardown_inputs (s : State) : (teardown s).inputs = s.inputs := rfl
@[simp] theorem teardown_response (s : State) : (teardown s).response = s.response := rfl
@[simp] theorem teardown_draws (s : State) : (teardown s).draws = s.draws := rfl

/-! A bridge event (R212, R216). -/

@[simp] theorem postEvent_config (p : List Byte) (s : State) : (postEvent p s).config = s.config := rfl
@[simp] theorem postEvent_busy (p : List Byte) (s : State) : (postEvent p s).busy = s.busy := rfl
@[simp] theorem postEvent_latch (p : List Byte) (s : State) : (postEvent p s).latch = s.latch := rfl
@[simp] theorem postEvent_pending (p : List Byte) (s : State) : (postEvent p s).pending = s.pending := rfl
@[simp] theorem postEvent_status (p : List Byte) (s : State) : (postEvent p s).status = s.status := rfl
@[simp] theorem postEvent_data0 (p : List Byte) (s : State) : (postEvent p s).data0 = s.data0 := rfl
@[simp] theorem postEvent_data1 (p : List Byte) (s : State) : (postEvent p s).data1 = s.data1 := rfl
@[simp] theorem postEvent_transmitReady (p : List Byte) (s : State) : (postEvent p s).transmitReady = s.transmitReady := rfl
@[simp] theorem postEvent_receiveReady (p : List Byte) (s : State) : (postEvent p s).receiveReady = true := rfl
@[simp] theorem postEvent_receiveBusy (p : List Byte) (s : State) : (postEvent p s).receiveBusy = s.receiveBusy := rfl
@[simp] theorem postEvent_staging (p : List Byte) (s : State) : (postEvent p s).staging = overlay p s.staging := rfl
@[simp] theorem postEvent_pendingResult (p : List Byte) (s : State) : (postEvent p s).pendingResult = BitVec.ofNat 32 p.length := rfl
@[simp] theorem postEvent_sdramWritable (p : List Byte) (s : State) : (postEvent p s).sdramWritable = s.sdramWritable := rfl
@[simp] theorem postEvent_rom (p : List Byte) (s : State) : (postEvent p s).rom = s.rom := rfl
@[simp] theorem postEvent_endpoint (p : List Byte) (s : State) : (postEvent p s).endpoint = s.endpoint := rfl
@[simp] theorem postEvent_outLog (p : List Byte) (s : State) : (postEvent p s).outLog = s.outLog := rfl
@[simp] theorem postEvent_devLog (p : List Byte) (s : State) : (postEvent p s).devLog = s.devLog := rfl
@[simp] theorem postEvent_fault (p : List Byte) (s : State) : (postEvent p s).fault = s.fault := rfl
@[simp] theorem postEvent_inputs (p : List Byte) (s : State) : (postEvent p s).inputs = s.inputs := rfl
@[simp] theorem postEvent_response (p : List Byte) (s : State) : (postEvent p s).response = s.response := rfl
@[simp] theorem postEvent_draws (p : List Byte) (s : State) : (postEvent p s).draws = s.draws := rfl

/-! The copy of a transmit (R185, R186). -/

@[simp] theorem stageTransmit_config (b : List Byte) (s : State) : (stageTransmit b s).config = s.config := rfl
@[simp] theorem stageTransmit_busy (b : List Byte) (s : State) : (stageTransmit b s).busy = s.busy := rfl
@[simp] theorem stageTransmit_latch (b : List Byte) (s : State) : (stageTransmit b s).latch = s.latch := rfl
@[simp] theorem stageTransmit_pending (b : List Byte) (s : State) : (stageTransmit b s).pending = s.pending := rfl
@[simp] theorem stageTransmit_status (b : List Byte) (s : State) : (stageTransmit b s).status = s.status := rfl
@[simp] theorem stageTransmit_data0 (b : List Byte) (s : State) : (stageTransmit b s).data0 = s.data0 := rfl
@[simp] theorem stageTransmit_data1 (b : List Byte) (s : State) : (stageTransmit b s).data1 = s.data1 := rfl
@[simp] theorem stageTransmit_transmitReady (b : List Byte) (s : State) : (stageTransmit b s).transmitReady = false := rfl
@[simp] theorem stageTransmit_receiveReady (b : List Byte) (s : State) : (stageTransmit b s).receiveReady = s.receiveReady := rfl
@[simp] theorem stageTransmit_receiveBusy (b : List Byte) (s : State) : (stageTransmit b s).receiveBusy = s.receiveBusy := rfl
@[simp] theorem stageTransmit_staging (b : List Byte) (s : State) : (stageTransmit b s).staging = overlay b s.staging := rfl
@[simp] theorem stageTransmit_pendingResult (b : List Byte) (s : State) : (stageTransmit b s).pendingResult = s.pendingResult := rfl
@[simp] theorem stageTransmit_sdramWritable (b : List Byte) (s : State) : (stageTransmit b s).sdramWritable = s.sdramWritable := rfl
@[simp] theorem stageTransmit_rom (b : List Byte) (s : State) : (stageTransmit b s).rom = s.rom := rfl
@[simp] theorem stageTransmit_endpoint (b : List Byte) (s : State) : (stageTransmit b s).endpoint = s.endpoint := rfl
@[simp] theorem stageTransmit_outLog (b : List Byte) (s : State) : (stageTransmit b s).outLog = s.outLog := rfl
@[simp] theorem stageTransmit_devLog (b : List Byte) (s : State) : (stageTransmit b s).devLog = s.devLog := rfl
@[simp] theorem stageTransmit_fault (b : List Byte) (s : State) : (stageTransmit b s).fault = s.fault := rfl
@[simp] theorem stageTransmit_inputs (b : List Byte) (s : State) : (stageTransmit b s).inputs = s.inputs := rfl
@[simp] theorem stageTransmit_response (b : List Byte) (s : State) : (stageTransmit b s).response = s.response := rfl
@[simp] theorem stageTransmit_draws (b : List Byte) (s : State) : (stageTransmit b s).draws = s.draws := rfl

/-! The copy of a receive (R187, R188). -/

@[simp] theorem receiveTo_config (off : Nat) (s : State) : (receiveTo off s).config = s.config := rfl
@[simp] theorem receiveTo_busy (off : Nat) (s : State) : (receiveTo off s).busy = s.busy := rfl
@[simp] theorem receiveTo_latch (off : Nat) (s : State) : (receiveTo off s).latch = s.latch := rfl
@[simp] theorem receiveTo_pending (off : Nat) (s : State) : (receiveTo off s).pending = s.pending := rfl
@[simp] theorem receiveTo_status (off : Nat) (s : State) : (receiveTo off s).status = s.status := rfl
@[simp] theorem receiveTo_data0 (off : Nat) (s : State) : (receiveTo off s).data0 = s.data0 := rfl
@[simp] theorem receiveTo_data1 (off : Nat) (s : State) : (receiveTo off s).data1 = s.data1 := rfl
@[simp] theorem receiveTo_transmitReady (off : Nat) (s : State) : (receiveTo off s).transmitReady = s.transmitReady := rfl
@[simp] theorem receiveTo_receiveReady (off : Nat) (s : State) : (receiveTo off s).receiveReady = s.receiveReady := rfl
@[simp] theorem receiveTo_receiveBusy (off : Nat) (s : State) : (receiveTo off s).receiveBusy = false := rfl
@[simp] theorem receiveTo_staging (off : Nat) (s : State) : (receiveTo off s).staging = s.staging := rfl
@[simp] theorem receiveTo_pendingResult (off : Nat) (s : State) : (receiveTo off s).pendingResult = s.pendingResult := rfl
@[simp] theorem receiveTo_sdramWritable (off : Nat) (s : State) : (receiveTo off s).sdramWritable = s.sdramWritable := rfl
@[simp] theorem receiveTo_rom (off : Nat) (s : State) : (receiveTo off s).rom = s.rom.writeBytes off (stagingTake s.transferLength s.staging) := rfl
@[simp] theorem receiveTo_endpoint (off : Nat) (s : State) : (receiveTo off s).endpoint = s.endpoint := rfl
@[simp] theorem receiveTo_outLog (off : Nat) (s : State) : (receiveTo off s).outLog = s.outLog := rfl
@[simp] theorem receiveTo_devLog (off : Nat) (s : State) : (receiveTo off s).devLog = s.devLog := rfl
@[simp] theorem receiveTo_fault (off : Nat) (s : State) : (receiveTo off s).fault = s.fault := rfl
@[simp] theorem receiveTo_inputs (off : Nat) (s : State) : (receiveTo off s).inputs = s.inputs := rfl
@[simp] theorem receiveTo_response (off : Nat) (s : State) : (receiveTo off s).response = s.response := rfl
@[simp] theorem receiveTo_draws (off : Nat) (s : State) : (receiveTo off s).draws = s.draws := rfl

/-! A write handed to an external device (R118). -/

@[simp] theorem devWrite_config (dev : Device) (a : Word) (off : Nat) (v : BusValue) (s : State) : (devWrite dev a off v s).config = s.config := rfl
@[simp] theorem devWrite_busy (dev : Device) (a : Word) (off : Nat) (v : BusValue) (s : State) : (devWrite dev a off v s).busy = s.busy := rfl
@[simp] theorem devWrite_latch (dev : Device) (a : Word) (off : Nat) (v : BusValue) (s : State) : (devWrite dev a off v s).latch = s.latch := rfl
@[simp] theorem devWrite_pending (dev : Device) (a : Word) (off : Nat) (v : BusValue) (s : State) : (devWrite dev a off v s).pending = s.pending := rfl
@[simp] theorem devWrite_status (dev : Device) (a : Word) (off : Nat) (v : BusValue) (s : State) : (devWrite dev a off v s).status = s.status := rfl
@[simp] theorem devWrite_data0 (dev : Device) (a : Word) (off : Nat) (v : BusValue) (s : State) : (devWrite dev a off v s).data0 = s.data0 := rfl
@[simp] theorem devWrite_data1 (dev : Device) (a : Word) (off : Nat) (v : BusValue) (s : State) : (devWrite dev a off v s).data1 = s.data1 := rfl
@[simp] theorem devWrite_transmitReady (dev : Device) (a : Word) (off : Nat) (v : BusValue) (s : State) : (devWrite dev a off v s).transmitReady = s.transmitReady := rfl
@[simp] theorem devWrite_receiveReady (dev : Device) (a : Word) (off : Nat) (v : BusValue) (s : State) : (devWrite dev a off v s).receiveReady = s.receiveReady := rfl
@[simp] theorem devWrite_receiveBusy (dev : Device) (a : Word) (off : Nat) (v : BusValue) (s : State) : (devWrite dev a off v s).receiveBusy = s.receiveBusy := rfl
@[simp] theorem devWrite_staging (dev : Device) (a : Word) (off : Nat) (v : BusValue) (s : State) : (devWrite dev a off v s).staging = s.staging := rfl
@[simp] theorem devWrite_pendingResult (dev : Device) (a : Word) (off : Nat) (v : BusValue) (s : State) : (devWrite dev a off v s).pendingResult = s.pendingResult := rfl
@[simp] theorem devWrite_sdramWritable (dev : Device) (a : Word) (off : Nat) (v : BusValue) (s : State) : (devWrite dev a off v s).sdramWritable = s.sdramWritable := rfl
@[simp] theorem devWrite_rom (dev : Device) (a : Word) (off : Nat) (v : BusValue) (s : State) : (devWrite dev a off v s).rom = s.rom := rfl
@[simp] theorem devWrite_endpoint (dev : Device) (a : Word) (off : Nat) (v : BusValue) (s : State) : (devWrite dev a off v s).endpoint = s.endpoint := rfl
@[simp] theorem devWrite_outLog (dev : Device) (a : Word) (off : Nat) (v : BusValue) (s : State) : (devWrite dev a off v s).outLog = s.outLog := rfl
@[simp] theorem devWrite_devLog (dev : Device) (a : Word) (off : Nat) (v : BusValue) (s : State) : (devWrite dev a off v s).devLog = s.devLog ++ [⟨dev, a, off, v⟩] := rfl
@[simp] theorem devWrite_fault (dev : Device) (a : Word) (off : Nat) (v : BusValue) (s : State) : (devWrite dev a off v s).fault = s.fault := rfl
@[simp] theorem devWrite_inputs (dev : Device) (a : Word) (off : Nat) (v : BusValue) (s : State) : (devWrite dev a off v s).inputs = s.inputs := rfl
@[simp] theorem devWrite_response (dev : Device) (a : Word) (off : Nat) (v : BusValue) (s : State) : (devWrite dev a off v s).response = s.response := rfl
@[simp] theorem devWrite_draws (dev : Device) (a : Word) (off : Nat) (v : BusValue) (s : State) : (devWrite dev a off v s).draws = s.draws := rfl

/-! System init (R260): every field of the block at its reset value, `rom` and the model's own fields kept. -/

@[simp] theorem systemInit_config (s : State) : (systemInit s).config = s.config := rfl
@[simp] theorem systemInit_busy (s : State) : (systemInit s).busy = false := rfl
@[simp] theorem systemInit_latch (s : State) : (systemInit s).latch = 0#32 := rfl
@[simp] theorem systemInit_pending (s : State) : (systemInit s).pending = none := rfl
@[simp] theorem systemInit_status (s : State) : (systemInit s).status = 0#32 := rfl
@[simp] theorem systemInit_data0 (s : State) : (systemInit s).data0 = 0#32 := rfl
@[simp] theorem systemInit_data1 (s : State) : (systemInit s).data1 = 0#32 := rfl
@[simp] theorem systemInit_transmitReady (s : State) : (systemInit s).transmitReady = true := rfl
@[simp] theorem systemInit_receiveReady (s : State) : (systemInit s).receiveReady = false := rfl
@[simp] theorem systemInit_receiveBusy (s : State) : (systemInit s).receiveBusy = false := rfl
@[simp] theorem systemInit_staging (s : State) : (systemInit s).staging = State.reset.staging := rfl
@[simp] theorem systemInit_pendingResult (s : State) : (systemInit s).pendingResult = 0#32 := rfl
@[simp] theorem systemInit_sdramWritable (s : State) : (systemInit s).sdramWritable = false := rfl
@[simp] theorem systemInit_rom (s : State) : (systemInit s).rom = s.rom := rfl
@[simp] theorem systemInit_endpoint (s : State) : (systemInit s).endpoint = none := rfl
@[simp] theorem systemInit_outLog (s : State) : (systemInit s).outLog = [] := rfl
@[simp] theorem systemInit_devLog (s : State) : (systemInit s).devLog = [] := rfl
@[simp] theorem systemInit_fault (s : State) : (systemInit s).fault = none := rfl
@[simp] theorem systemInit_inputs (s : State) : (systemInit s).inputs = s.inputs := rfl
@[simp] theorem systemInit_response (s : State) : (systemInit s).response = .nothing := rfl
@[simp] theorem systemInit_draws (s : State) : (systemInit s).draws = s.draws := rfl

theorem reset_staging : State.reset.staging = List.replicate stageN 0#8 := by simp only [State.reset]

theorem length_reset_staging : State.reset.staging.length = stageN := by
  rw [reset_staging, List.length_replicate]

end Sys2Proof.Machine
end

