-- ==== Sys2Proof/Laws/Outcome.lean ====
section
/-!
SUPPORT. How a transaction's outcome is settled, and what each instruction does when it goes through: one inversion lemma for
every instruction.
-/

namespace Sys2Proof.Machine

@[simp] theorem whenRunning_running (s : State) (k : Host.Outcome State Fault Refusal) (h : s.fault = none) :
    whenRunning s k = k := by
  simp only [whenRunning, h]

@[simp] theorem whenRunning_halted (s : State) (k : Host.Outcome State Fault Refusal) (f : FaultKind)
    (h : s.fault = some f) : whenRunning s k = .fault (.halted f) := by
  simp only [whenRunning, h]

theorem transact_ok (s t : State) (a : Action) (h : s.fault = none) (ha : a s = .ok t) : transact s a = .next t := by
  simp only [transact, whenRunning, h, ha, settle]

theorem transact_error (s : State) (k : FaultKind) (a : Action) (h : s.fault = none) (ha : a s = .error k) :
    transact s a = .next (s.raise k) := by
  simp only [transact, whenRunning, h, ha, settle]

/-- A transaction that answers a next state ran from a running state, and either went through or recorded its fault. -/
theorem transact_next (s t : State) (a : Action) (h : transact s a = .next t) :
    s.fault = none ∧ (a s = .ok t ∨ ∃ k, a s = .error k ∧ t = s.raise k) := by
  unfold transact whenRunning at h
  split at h
  · cases h
  · next hf =>
    refine ⟨hf, ?_⟩
    unfold settle at h
    split at h
    · next ha => cases h; exact .inl ha
    · next k ha => cases h; exact .inr ⟨k, ha, rfl⟩

theorem transact_halted (s : State) (a : Action) (k : FaultKind) (h : s.fault = some k) :
    transact s a = .fault (.halted k) := by
  simp only [transact, whenRunning, h]

/-- The action an instruction performs; INBOUND's where it is enabled. -/
def actionOf : Instr → Action
  | .cpuRw a => readWord a
  | .cpuWw a v => writeWord a v
  | .dmaRh a => dmaRead .half a
  | .dmaRw a => dmaRead .word a
  | .dmaWh a v => dmaWrite a (.half v)
  | .dmaWw a v => dmaWrite a (.word v)
  | .advance n => fun s => .ok ((elapse n s).respond .nothing)
  | .forceFinish => fun s => .ok ((drain s).respond (.cycles s.cyclesRemaining))
  | .isBusy => fun s => .ok (s.respond (.flag s.busy))
  | .latchedValue => fun s => .ok (s.respond (.latched s.latch))
  | .reset => fun s => .ok (systemInit s)
  | .inbound p => fun s => .ok ((postEvent p s).respond .nothing)
  | .txReady hi => fun s => issue (commandWord hi s.config.commands.txReady) cmdTxReady s
  | .rxReady hi => fun s => issue (commandWord hi s.config.commands.rxReady) cmdRxReady s
  | .txData hi => fun s => issue (commandWord hi s.config.commands.txData) cmdTxData s
  | .txDataLegacy hi => fun s => issue (commandWord hi s.config.commands.txDataLegacy) cmdTxDataLegacy s
  | .rxData hi => fun s => issue (commandWord hi s.config.commands.rxData) cmdRxData s
  | .rxDataLegacy hi => fun s => issue (commandWord hi s.config.commands.rxDataLegacy) cmdRxDataLegacy s
  | .rxBusy hi => fun s => issue (commandWord hi s.config.commands.rxBusy) cmdRxBusy s
  | .config hi => fun s => issue (commandWord hi s.config.commands.config) cmdConfig s
  | .unrecognized v => fun s => issue v cmdUnrecognized s

/-- Every instruction but INBOUND is one transaction with its action. -/
theorem exec_eq_transact (i : Instr) (s : State) (h : ∀ p, i ≠ .inbound p) : exec i s = transact s (actionOf i) := by
  cases i
  case inbound p => exact absurd rfl (h p)
  all_goals rfl

/-- When INBOUND is enabled (R216, R217). Every other instruction is enabled in a running state. -/
def enabled : Instr → State → Prop
  | .inbound p, s => p.length ≤ stageN ∧ s.endpoint ≠ none
  | _, _ => True

/-- INBOUND answers a next state only where it is enabled, and then posts its event. -/
theorem execInbound_next (p : List Byte) (s t : State) (h : execInbound p s = .next t) :
    s.fault = none ∧ p.length ≤ stageN ∧ s.endpoint ≠ none ∧ t = (postEvent p s).respond .nothing := by
  unfold execInbound whenRunning at h
  split at h
  · cases h
  · next hf =>
    split at h
    · cases h
    · next hl =>
      split at h
      · cases h
      · next e he => cases h; exact ⟨hf, by omega, by simp [he], rfl⟩

/-- What an instruction that answers a next state did. -/
theorem exec_next (i : Instr) (s t : State) (h : exec i s = .next t) :
    s.fault = none ∧ enabled i s ∧ (actionOf i s = .ok t ∨ ∃ k, actionOf i s = .error k ∧ t = s.raise k) := by
  by_cases hi : ∃ p, i = .inbound p
  · obtain ⟨p, rfl⟩ := hi
    obtain ⟨hf, hl, he, rfl⟩ := execInbound_next p s t h
    exact ⟨hf, ⟨hl, he⟩, .inl rfl⟩
  · rw [exec_eq_transact i s (fun p hp => hi ⟨p, hp⟩)] at h
    have := transact_next s t _ h
    refine ⟨this.1, ?_, this.2⟩
    cases i
    case inbound p => exact absurd ⟨p, rfl⟩ hi
    all_goals trivial

/-- An enabled instruction in a running state whose action goes through answers its state. -/
theorem exec_ok (i : Instr) (s t : State) (hf : s.fault = none) (he : enabled i s) (ha : actionOf i s = .ok t) :
    exec i s = .next t := by
  cases i
  case inbound p =>
    cases ha
    have : ¬ stageN < p.length := by have := he.1; omega
    cases hp : s.endpoint with
    | none => exact absurd hp he.2
    | some e => simp only [exec, execInbound, whenRunning, hf, hp, this, if_false]
  all_goals exact (exec_eq_transact _ s (fun _ h => by cases h)).trans (transact_ok s t _ hf ha)

/-- An instruction in a running state whose action faults answers the state with the fault recorded. -/
theorem exec_error (i : Instr) (s : State) (k : FaultKind) (hf : s.fault = none) (ha : actionOf i s = .error k) :
    exec i s = .next (s.raise k) := by
  cases i
  case inbound p => cases ha
  all_goals exact (exec_eq_transact _ s (fun _ h => by cases h)).trans (transact_error s k _ hf ha)

theorem exec_halted (i : Instr) (s : State) (k : FaultKind) (hf : s.fault = some k) :
    exec i s = .fault (.halted k) := by
  cases i
  case inbound p => simp only [exec, execInbound, whenRunning, hf]
  all_goals exact (exec_eq_transact _ s (fun _ h => by cases h)).trans (transact_halted s _ k hf)

/-- What the step takes is what the decoder reads from the oldest presented record. -/
theorem takeInput_transaction (s t : State) (i : Instr) (h : takeInput s = .transaction i t) :
    ∃ p rest, s.inputs = p :: rest ∧ decode s.config p = .ok i ∧ t = { s with inputs := rest } := by
  unfold takeInput at h
  split at h
  · cases h
  · next p rest hp =>
    split at h
    · cases h
    · next j hd => cases h; exact ⟨p, rest, hp, hd, rfl⟩

/-- A step that answers a next state idled, or ran the transaction it took. -/
theorem step_next (s t : State) (h : step s = .next t) :
    s.fault = none ∧
    ((s.inputs = [] ∧ t = s) ∨
      ∃ p rest i, s.inputs = p :: rest ∧ decode s.config p = .ok i ∧ exec i { s with inputs := rest } = .next t) := by
  unfold step whenRunning at h
  split at h
  · cases h
  · next hf =>
    refine ⟨hf, ?_⟩
    unfold takeInput at h
    split at h
    · next hn =>
      cases h
      split at hn
      · next hi => exact .inl ⟨hi, rfl⟩
      · split at hn <;> cases hn
    · cases h
    · next i u hu =>
      obtain ⟨p, rest, hp, hd, rfl⟩ := takeInput_transaction s u i hu
      exact .inr ⟨p, rest, i, hp, hd, h⟩

end Sys2Proof.Machine
end

