-- ==== Sys2Proof/Laws/Decoder.lean ====
section
/-!
SUPPORT. The address decoder: which window holds an address of a well-formed table, and what its device can be.
-/

namespace Sys2Proof.Machine

/-- The constraints of R51, as linear facts. -/
theorem WindowTable.facts (t : WindowTable) (h : t.wf = true) :
    0 < t.ddC2s ∧ t.ddC2s < t.ddDs ∧ t.ddDs < t.ddCtrl ∧ t.ddCtrl < t.ddMs ∧ t.ddMs < t.gap1 ∧ t.gap1 < t.ddIpl ∧
    t.ddIpl < t.gap2 ∧ t.gap2 < t.cartSave ∧ t.cartSave < t.cartRom ∧ t.cartRom < t.viewer ∧ t.viewer < t.cfgBase ∧
    t.cfgBase + 16 < 2 ^ 32 ∧ t.cfgBase % 16 = 0 := by
  simp only [WindowTable.wf, Bool.and_eq_true, decide_eq_true_eq] at h
  tauto

/-- The lookup finds the row that holds the address, and no other row holds it. -/
theorem windowOf_of_holds (t : WindowTable) (a : Nat) (h : t.wf = true) (r : Window) (hr : r ∈ windowRows t)
    (h1 : r.low ≤ a) (h2 : a ≤ r.high) : windowOf t a = some r := by
  obtain ⟨_, _, _, _, _, _, _, _, _, _, _, _, _⟩ := WindowTable.facts t h
  simp only [windowRows, List.mem_cons, List.not_mem_nil, or_false] at hr
  unfold windowOf windowRows
  rcases hr with rfl | rfl | rfl | rfl | rfl | rfl | rfl | rfl | rfl | rfl | rfl | rfl | rfl <;>
    simp only [] at h1 h2 <;>
    simp only [List.find?, Window.holds, h1, h2, decide_true, Bool.and_self] <;>
    repeat (first
      | rfl
      | rw [decide_eq_false (by omega : ¬ _ ≤ a), Bool.false_and]
      | rw [decide_eq_false (by omega : ¬ a ≤ _), Bool.and_false])

/-- Only the CART_SAVE window gives the flash device, and only where SRAM is absent (R54). -/
theorem targetOf_saveFlash (c : Config) (r : Window) (a off : Nat) (h : targetOf c r a = .mapped .saveFlash off) :
    c.ramPresent = false := by
  unfold targetOf gated at h
  cases hr : c.ramPresent <;> simp only [hr] at h ⊢
  split at h <;> (try split at h) <;> simp_all

end Sys2Proof.Machine
end

