-- ==== Sys2Proof/Laws/Kept.lean ====
section
/-!
SUPPORT. Inversion lemmas for the bridge, the commands, the register file and the bus, and the relation `Kept`: what every
transaction but RESET keeps. Each shared operation has one lemma that says everything it can do.
-/

namespace Sys2Proof.Machine

/-- What every transaction but RESET keeps. -/
structure Kept (s t : State) : Prop where
  config : t.config = s.config
  inputs : t.inputs = s.inputs
  fault : t.fault = s.fault
  draws : s.draws ≤ t.draws
  outLog : s.outLog <+: t.outLog
  devLog : s.devLog <+: t.devLog
  rom_wf : s.rom.wf = true → t.rom.wf = true
  rom_below : Memory.below s.config.romSize s.rom = true → Memory.below s.config.romSize t.rom = true
  staging : s.staging.length = stageN → t.staging.length = stageN
  receive_idle : s.receiveBusy = false → t.receiveBusy = false
  cache_empty : (s.receiveReady = false → s.pendingResult = 0#32) → t.receiveReady = false → t.pendingResult = 0#32
  cache_bound : s.pendingResult.toNat ≤ stageN → t.pendingResult.toNat ≤ stageN

/-- The controller's fields are the same (R151, R152). -/
structure SameGate (s t : State) : Prop where
  busy : t.busy = s.busy
  latch : t.latch = s.latch
  pending : t.pending = s.pending

theorem Kept.refl (s : State) : Kept s s :=
  ⟨rfl, rfl, rfl, le_refl _, List.prefix_refl _, List.prefix_refl _, id, id, id, id, id, id⟩

theorem Kept.trans {s t u : State} (h : Kept s t) (k : Kept t u) : Kept s u where
  config := k.config.trans h.config
  inputs := k.inputs.trans h.inputs
  fault := k.fault.trans h.fault
  draws := h.draws.trans k.draws
  outLog := h.outLog.trans k.outLog
  devLog := h.devLog.trans k.devLog
  rom_wf := k.rom_wf ∘ h.rom_wf
  rom_below := fun x => by have := k.rom_below; rw [h.config] at this; exact this (h.rom_below x)
  staging := k.staging ∘ h.staging
  receive_idle := k.receive_idle ∘ h.receive_idle
  cache_empty := k.cache_empty ∘ h.cache_empty
  cache_bound := k.cache_bound ∘ h.cache_bound

theorem SameGate.refl (s : State) : SameGate s s := ⟨rfl, rfl, rfl⟩

theorem SameGate.trans {s t u : State} (h : SameGate s t) (k : SameGate t u) : SameGate s u :=
  ⟨k.busy.trans h.busy, k.latch.trans h.latch, k.pending.trans h.pending⟩

/-! The staging buffer. -/

theorem length_overlay (p st : List Byte) (n : Nat) (hp : p.length ≤ n) (hs : st.length = n) :
    (overlay p st).length = n := by
  simp only [overlay, List.length_append, List.length_drop, hs]
  omega

theorem take_overlay (p st : List Byte) : (overlay p st).take p.length = p := by
  simp [overlay]

theorem length_hostOf (p : List Byte) : (hostOf p).length ≤ p.length := (List.takeWhile_sublist _).length_le

theorem toNat_length (p : List Byte) (h : p.length ≤ stageN) : (BitVec.ofNat 32 p.length).toNat = p.length := by
  simp only [stageN] at h
  rw [BitVec.toNat_ofNat, Nat.mod_eq_of_lt (by omega)]

/-- A bridge event of at most STAGE_N bytes. -/
theorem postEvent_kept (p : List Byte) (s : State) (hp : p.length ≤ stageN) : Kept s (postEvent p s) where
  config := rfl
  inputs := rfl
  fault := rfl
  draws := le_refl _
  outLog := List.prefix_refl _
  devLog := List.prefix_refl _
  rom_wf := id
  rom_below := id
  staging := length_overlay p s.staging stageN hp
  receive_idle := id
  cache_empty := fun _ h => absurd h (by simp)
  cache_bound := fun _ => by simp [toNat_length p hp, hp]

/-- Everything a network request can do (R212 to R215). -/
theorem netDispatch_cases (h : HeaderType) (p : List Byte) (s : State) :
    (h = .connect ∧ Config.drawBool s.draws = true ∧ netDispatch h p s =
      (true, postEvent (hostOf p) { s with draws := s.draws + 1, endpoint := some (.client (hostOf p)) })) ∨
    (h = .connect ∧ Config.drawBool s.draws = false ∧ netDispatch h p s =
      (false, { s with draws := s.draws + 1, endpoint := none })) ∨
    (h = .server ∧ Config.drawBool s.draws = true ∧ netDispatch h p s =
      (true, { s with draws := s.draws + 1, endpoint := some (.server p) })) ∨
    (h = .server ∧ Config.drawBool s.draws = false ∧ netDispatch h p s =
      (false, { s with draws := s.draws + 1, endpoint := none })) ∨
    (h = .send ∧ ∃ e, s.endpoint = some e ∧ netDispatch h p s = (true, { s with outLog := s.outLog ++ [⟨e, p⟩] })) ∨
    (h = .send ∧ s.endpoint = none ∧ netDispatch h p s = (true, s)) ∨
    (h = .text ∧ netDispatch h p s = (true, s)) := by
  cases h
  · cases hd : Config.drawBool s.draws <;> simp [netDispatch, bridgeConnect, drawOk, teardown, hd]
  · cases hd : Config.drawBool s.draws <;> simp [netDispatch, bridgeServe, drawOk, teardown, hd]
  · cases he : s.endpoint <;> simp [netDispatch, bridgeSend, he]
  · simp [netDispatch, bridgeText]

/-- A request keeps what every transaction keeps, the controller, and the flags and registers of the command engine. -/
theorem netDispatch_kept (h : HeaderType) (p : List Byte) (s : State) (hp : p.length ≤ stageN) :
    Kept s (netDispatch h p s).2 ∧ SameGate s (netDispatch h p s).2 ∧
    (netDispatch h p s).2.status = s.status ∧ (netDispatch h p s).2.sdramWritable = s.sdramWritable := by
  rcases netDispatch_cases h p s with ⟨_, _, e⟩ | ⟨_, _, e⟩ | ⟨_, _, e⟩ | ⟨_, _, e⟩ | ⟨_, x, _, e⟩ | ⟨_, _, e⟩ | ⟨_, e⟩ <;>
    rw [e]
  · refine ⟨?_, ⟨rfl, rfl, rfl⟩, rfl, rfl⟩
    refine Kept.trans ?_ (postEvent_kept (hostOf p) _ ((length_hostOf p).trans hp))
    exact { Kept.refl s with draws := Nat.le_succ _ }
  · exact ⟨{ Kept.refl s with draws := Nat.le_succ _ }, ⟨rfl, rfl, rfl⟩, rfl, rfl⟩
  · exact ⟨{ Kept.refl s with draws := Nat.le_succ _ }, ⟨rfl, rfl, rfl⟩, rfl, rfl⟩
  · exact ⟨{ Kept.refl s with draws := Nat.le_succ _ }, ⟨rfl, rfl, rfl⟩, rfl, rfl⟩
  · exact ⟨{ Kept.refl s with outLog := List.prefix_append _ _ }, ⟨rfl, rfl, rfl⟩, rfl, rfl⟩
  · exact ⟨Kept.refl s, SameGate.refl s, rfl, rfl⟩
  · exact ⟨Kept.refl s, SameGate.refl s, rfl, rfl⟩

theorem stageTransmit_kept (b : List Byte) (s : State) (hb : b.length ≤ stageN) :
    Kept s (stageTransmit b s) ∧ SameGate s (stageTransmit b s) :=
  ⟨{ Kept.refl s with staging := length_overlay b s.staging stageN hb }, ⟨rfl, rfl, rfl⟩⟩

theorem transmitFinish_kept (ok : Bool) (s : State) :
    Kept s (transmitFinish ok s) ∧ SameGate s (transmitFinish ok s) ∧ (transmitFinish ok s).transmitReady = true ∧
    (transmitFinish ok s).sdramWritable = s.sdramWritable := by
  cases ok
  · exact ⟨{ Kept.refl s with }, ⟨rfl, rfl, rfl⟩, rfl, rfl⟩
  · exact ⟨{ Kept.refl s with }, ⟨rfl, rfl, rfl⟩, rfl, rfl⟩

/-- The status after a transmit: cleared, or the word it had with ERR set. -/
theorem transmitFinish_status (ok : Bool) (s : State) :
    (transmitFinish ok s).status = 0#32 ∨ (transmitFinish ok s).status = setErr s.status := by
  cases ok
  · exact .inr rfl
  · exact .inl rfl

/-- The request of a generic transmit is none at all, or the one its first byte selects (R89, R185). -/
theorem genericRequest_cases (b : List Byte) (s : State) :
    (genericRequest b s = (true, s)) ∨
    ∃ t p h, b = t :: p ∧ headerOf s.config.headers t = some h ∧ genericRequest b s = netDispatch h p s := by
  unfold genericRequest
  split
  · exact .inl rfl
  · next t p =>
    split
    · exact .inl rfl
    · next h hh => exact .inr ⟨t, p, h, rfl, hh, rfl⟩

/-- A receive in range writes only inside the store. -/
theorem receiveTo_kept (off : Nat) (s : State) (h : off + s.transferLength ≤ s.config.romSize) :
    Kept s (receiveTo off s) ∧ SameGate s (receiveTo off s) := by
  refine ⟨{ Kept.refl s with
    rom_wf := fun hw => Memory.wf_writeBytes _ _ _ hw
    rom_below := fun hb => Memory.below_writeBytes _ _ _ _ ?_ hb
    receive_idle := fun _ => rfl }, ⟨rfl, rfl, rfl⟩⟩
  have : (stagingTake s.transferLength s.staging).length ≤ s.transferLength := by
    simp only [stagingTake, List.length_take]; omega
  exact (Nat.add_le_add_left this off).trans h

/-- The range checks as linear facts (R183). -/
theorem genericInRange_iff (s : State) :
    s.genericInRange = true ↔ s.config.romPresent = true ∧ s.data0.toNat ≤ stageN ∧
      s.data1.toNat + s.data0.toNat ≤ s.config.romSize := by
  simp only [State.genericInRange, Bool.and_eq_true, decide_eq_true_eq, and_assoc]
  rfl

theorem legacyInRange_iff (s : State) (extra : Nat) :
    s.legacyInRange extra = true ↔ s.config.romPresent = true ∧ s.config.windows.cartRom ≤ s.data1.toNat ∧
      s.data0.toNat ≤ stageN ∧ s.legacyOffset + extra + s.data0.toNat ≤ s.config.romSize := by
  simp only [State.legacyInRange, Bool.and_eq_true, decide_eq_true_eq, and_assoc]
  rfl

/-- A transmit that finishes with the outcome of a request keeps what every transaction keeps. -/
theorem finishRequest_kept (r : Bool × State) (s : State) (hk : Kept s r.2) (hg : SameGate s r.2)
    (hw : r.2.sdramWritable = s.sdramWritable) :
    Kept s (finishRequest r) ∧ SameGate s (finishRequest r) ∧ (finishRequest r).transmitReady = true ∧
    (finishRequest r).sdramWritable = s.sdramWritable := by
  obtain ⟨k, g, tr, w⟩ := transmitFinish_kept r.1 r.2
  exact ⟨hk.trans k, hg.trans g, tr, w.trans hw⟩

/-- TX_DATA faults on the range check, or goes through to the end of its request. -/
theorem cmdTxData_ok (s t : State) (h : cmdTxData s = .ok t) :
    s.genericInRange = true ∧
    t = finishRequest (genericRequest (s.rom.readBytes s.transferAddress s.transferLength)
      (stageTransmit (s.rom.readBytes s.transferAddress s.transferLength) s)) := by
  unfold cmdTxData at h
  split at h
  · next hr => cases h; exact ⟨hr, rfl⟩
  · cases h

/-- TX_DATA_LEGACY that goes through passed its four checks (R186). -/
theorem cmdTxDataLegacy_ok (s t : State) (h : cmdTxDataLegacy s = .ok t) :
    s.legacyInRange 8 = true ∧ s.rom.word s.legacyOffset = s.config.legacySig ∧
    (headerSize (s.rom.word (s.legacyOffset + 4))).toNat ≤ s.transferLength ∧
    ∃ hd, headerOf s.config.headers (headerTypeByte (s.rom.word (s.legacyOffset + 4))) = some hd ∧
      t = sendLegacy hd (s.rom.readBytes (s.legacyOffset + 8) s.transferLength)
        ((s.rom.readBytes (s.legacyOffset + 8) s.transferLength).take
          (headerSize (s.rom.word (s.legacyOffset + 4))).toNat) s := by
  unfold cmdTxDataLegacy at h
  split at h
  · next hr =>
    simp only at h
    split at h
    · next hs =>
      split at h
      · next hl =>
        split at h
        · next hd hh => cases h; exact ⟨hr, hs, hl, hd, hh, rfl⟩
        · cases h
      · cases h
    · cases h
  · cases h

/-- What a command that goes through keeps. -/
theorem runCommand_kept (c : Command) (s t : State) (h : runCommand c s = .ok t) :
    Kept s t ∧ SameGate s t ∧ t.devLog = s.devLog ∧ (s.transmitReady = true → t.transmitReady = true) ∧
    (c ≠ .config → t.sdramWritable = s.sdramWritable) := by
  cases c
  case txReady => cases h; exact ⟨{ Kept.refl s with }, ⟨rfl, rfl, rfl⟩, rfl, id, fun _ => rfl⟩
  case rxReady =>
    simp only [runCommand, cmdRxReady] at h
    split at h <;> cases h
    · exact ⟨{ Kept.refl s with cache_empty := fun _ _ => rfl, cache_bound := fun _ => Nat.zero_le _ },
        ⟨rfl, rfl, rfl⟩, rfl, id, fun _ => rfl⟩
    · exact ⟨{ Kept.refl s with cache_empty := fun _ _ => rfl, cache_bound := fun _ => Nat.zero_le _ },
        ⟨rfl, rfl, rfl⟩, rfl, id, fun _ => rfl⟩
  case txData =>
    obtain ⟨hr, rfl⟩ := cmdTxData_ok s t h
    obtain ⟨_, hl, _⟩ := (genericInRange_iff s).1 hr
    let b := s.rom.readBytes s.transferAddress s.transferLength
    have hb : b.length ≤ stageN := by simpa [b, State.transferLength] using hl
    obtain ⟨hk, hg⟩ := stageTransmit_kept b s hb
    have hq : Kept s (genericRequest b (stageTransmit b s)).2 ∧ SameGate s (genericRequest b (stageTransmit b s)).2 ∧
        (genericRequest b (stageTransmit b s)).2.devLog = s.devLog ∧
        (genericRequest b (stageTransmit b s)).2.sdramWritable = s.sdramWritable := by
      rcases genericRequest_cases b (stageTransmit b s) with e | ⟨ty, p, hd, hbp, _, e⟩
      · rw [e]; exact ⟨hk, hg, rfl, rfl⟩
      · have hp : p.length ≤ stageN := by rw [hbp] at hb; simp only [List.length_cons] at hb; omega
        obtain ⟨k, g, _, w⟩ := netDispatch_kept hd p (stageTransmit b s) hp
        rw [e]
        refine ⟨hk.trans k, hg.trans g, ?_, w⟩
        rcases netDispatch_cases hd p (stageTransmit b s) with
          ⟨_, _, e⟩ | ⟨_, _, e⟩ | ⟨_, _, e⟩ | ⟨_, _, e⟩ | ⟨_, x, _, e⟩ | ⟨_, _, e⟩ | ⟨_, e⟩ <;> rw [e] <;> rfl
    obtain ⟨k, g, tr, w⟩ := finishRequest_kept (genericRequest b (stageTransmit b s)) s hq.1 hq.2.1 hq.2.2.2
    refine ⟨k, g, ?_, fun _ => tr, fun _ => w⟩
    rw [← hq.2.2.1]
    unfold finishRequest transmitFinish
    split <;> rfl
  case txDataLegacy =>
    obtain ⟨hr, _, hl, hd, _, rfl⟩ := cmdTxDataLegacy_ok s t h
    obtain ⟨_, _, hL, _⟩ := (legacyInRange_iff s 8).1 hr
    let b := s.rom.readBytes (s.legacyOffset + 8) s.transferLength
    let p := b.take (headerSize (s.rom.word (s.legacyOffset + 4))).toNat
    have hb : b.length ≤ stageN := by simpa [b, State.transferLength] using hL
    have hp : p.length ≤ stageN := (List.length_take_le' _ _).trans hb
    obtain ⟨hk, hg⟩ := stageTransmit_kept b s hb
    obtain ⟨k, g, _, w⟩ := netDispatch_kept hd p (stageTransmit b s) hp
    obtain ⟨k', g', tr, w'⟩ := finishRequest_kept (netDispatch hd p (stageTransmit b s)) s (hk.trans k) (hg.trans g) w
    refine ⟨k', g', ?_, fun _ => tr, fun _ => w'⟩
    have hv : (netDispatch hd p (stageTransmit b s)).2.devLog = s.devLog := by
      rcases netDispatch_cases hd p (stageTransmit b s) with
        ⟨_, _, e⟩ | ⟨_, _, e⟩ | ⟨_, _, e⟩ | ⟨_, _, e⟩ | ⟨_, x, _, e⟩ | ⟨_, _, e⟩ | ⟨_, e⟩ <;> rw [e] <;> rfl
    rw [← hv]
    unfold sendLegacy finishRequest transmitFinish
    split <;> rfl
  case rxData =>
    simp only [runCommand, cmdRxData] at h
    split at h
    · next hr =>
      cases h
      obtain ⟨k, g⟩ := receiveTo_kept s.transferAddress s ((genericInRange_iff s).1 hr).2.2
      exact ⟨k, g, rfl, id, fun _ => rfl⟩
    · cases h
  case rxDataLegacy =>
    simp only [runCommand, cmdRxDataLegacy] at h
    split at h
    · next hr =>
      cases h
      have := ((legacyInRange_iff s 0).1 hr).2.2.2
      obtain ⟨k, g⟩ := receiveTo_kept s.legacyOffset s (by simp only [State.transferLength]; omega)
      exact ⟨k, g, rfl, id, fun _ => rfl⟩
    · cases h
  case rxBusy => cases h; exact ⟨{ Kept.refl s with }, ⟨rfl, rfl, rfl⟩, rfl, id, fun _ => rfl⟩
  case config =>
    simp only [runCommand, cmdConfig] at h
    split at h <;> cases h
    · exact ⟨{ Kept.refl s with }, ⟨rfl, rfl, rfl⟩, rfl, id, fun hc => absurd rfl hc⟩
    · exact ⟨Kept.refl s, SameGate.refl s, rfl, id, fun _ => rfl⟩
  case unrecognized => cases h; exact ⟨{ Kept.refl s with }, ⟨rfl, rfl, rfl⟩, rfl, id, fun _ => rfl⟩

/-- A command written to the command register is stored, then run (R162). -/
theorem writeCommand_kept (v : Word) (c : Command) (s t : State) (h : writeCommand v (runCommand c) s = .ok t) :
    Kept s t ∧ SameGate s t ∧ t.devLog = s.devLog ∧ (s.transmitReady = true → t.transmitReady = true) ∧
    (c ≠ .config → t.sdramWritable = s.sdramWritable) := by
  obtain ⟨k, g, d, tr, w⟩ := runCommand_kept c { s with status := v } t h
  exact ⟨{ k with }, ⟨g.busy, g.latch, g.pending⟩, d, tr, w⟩

/-- Everything a register write can do (R162). -/
theorem regWrite_cases (off : Nat) (v : Word) (s t : State) (h : regWrite off v s = .ok t) :
    (registerAt off = .commandStatus ∧ writeCommand v (runCommand (commandOf s.config.commands (codeOf v))) s = .ok t) ∨
    t = { s with data0 := v } ∨ t = { s with data1 := v } ∨ t = s := by
  unfold regWrite at h
  split at h
  · next hr => exact .inl ⟨hr, h⟩
  · cases h; exact .inr (.inl rfl)
  · cases h; exact .inr (.inr (.inl rfl))
  · cases h; exact .inr (.inr (.inr rfl))

/-- A bus read changes nothing but, where it draws, the draw counter (R111). -/
theorem busRead_ok (w : Width) (a : Word) (s t : State) (v : BusValue) (h : busRead w a s = .ok (v, t)) :
    widthOf v = w ∧ (t = s ∨ t = { s with draws := s.draws + 1 }) := by
  unfold busRead at h
  split at h
  · cases h; cases w <;> exact ⟨rfl, .inl rfl⟩
  · next dev off _ =>
    split at h
    · cases h
    · cases dev <;> simp only [readTarget, devRead, romBusRead, drawValue] at h <;> cases w <;>
        simp only at h <;> (try split at h) <;> cases h <;> first
          | exact ⟨rfl, .inl rfl⟩
          | exact ⟨rfl, .inr rfl⟩

theorem draw_kept (s : State) : Kept s { s with draws := s.draws + 1 } ∧ SameGate s { s with draws := s.draws + 1 } :=
  ⟨{ Kept.refl s with draws := Nat.le_succ _ }, ⟨rfl, rfl, rfl⟩⟩

/-- Everything a bus write can do (R112): nothing, a store into `rom`, an entry of `devLog`, or a register write, which only a
Word can be. -/
theorem busWrite_cases (a : Word) (v : BusValue) (s t : State) (h : busWrite a v s = .ok t) :
    t = s ∨
    (∃ off, decodeAddress s.config a = .mapped .rom off ∧ s.sdramWritable = true ∧
      off + (bytesBe v).length ≤ s.config.romSize ∧ t = { s with rom := s.rom.writeBytes off (bytesBe v) }) ∨
    (∃ dev off, decodeAddress s.config a = .mapped dev off ∧ t = devWrite dev a off v s) ∨
    (∃ off x, decodeAddress s.config a = .mapped .cfg off ∧ a.toNat % 4 = 0 ∧ v = .word x ∧ regWrite off x s = .ok t) := by
  unfold busWrite at h
  split at h
  · cases h; exact .inl rfl
  · next dev off hd =>
    split at h
    · cases h
    · next hm =>
      cases dev
      case cfg =>
        simp only [writeTarget] at h
        cases v with
        | half x => cases h
        | word x => exact .inr (.inr (.inr ⟨off, x, hd, by simpa [misaligned, widthOf] using hm, rfl, h⟩))
      case rom =>
        simp only [writeTarget, romBusWrite] at h
        split at h
        · next hw =>
          simp only [Bool.and_eq_true, decide_eq_true_eq] at hw
          cases h
          exact .inr (.inl ⟨off, hd, hw.1, by rw [length_bytesBe]; exact hw.2, rfl⟩)
        · cases h; exact .inl rfl
      all_goals
        cases h
        exact .inr (.inr (.inl ⟨_, off, hd, rfl⟩))

/-- What a bus write keeps. -/
theorem busWrite_kept (a : Word) (v : BusValue) (s t : State) (h : busWrite a v s = .ok t) :
    Kept s t ∧ SameGate s t ∧ (s.transmitReady = true → t.transmitReady = true) ∧
    (t.sdramWritable = s.sdramWritable ∨ ∃ off x, decodeAddress s.config a = .mapped .cfg off ∧
      registerAt off = .commandStatus ∧ a.toNat % 4 = 0 ∧ v = .word x ∧
      commandOf s.config.commands (codeOf x) = .config) := by
  rcases busWrite_cases a v s t h with rfl | ⟨off, _, _, hl, rfl⟩ | ⟨dev, off, _, rfl⟩ | ⟨off, x, hd, hm, rfl, hr⟩
  · exact ⟨Kept.refl t, SameGate.refl t, id, .inl rfl⟩
  · exact ⟨{ Kept.refl s with
      rom_wf := fun hw => Memory.wf_writeBytes _ _ _ hw
      rom_below := fun hb => Memory.below_writeBytes _ _ _ _ hl hb }, ⟨rfl, rfl, rfl⟩, id, .inl rfl⟩
  · exact ⟨{ Kept.refl s with devLog := List.prefix_append _ _ }, ⟨rfl, rfl, rfl⟩, id, .inl rfl⟩
  · rcases regWrite_cases off x s t hr with ⟨ho, hc⟩ | rfl | rfl | rfl
    · obtain ⟨k, g, _, tr, w⟩ := writeCommand_kept _ _ s t hc
      refine ⟨k, g, tr, ?_⟩
      by_cases hc : commandOf s.config.commands (codeOf x) = .config
      · exact .inr ⟨off, x, hd, ho, hm, rfl, hc⟩
      · exact .inl (w hc)
    · exact ⟨{ Kept.refl s with }, ⟨rfl, rfl, rfl⟩, id, .inl rfl⟩
    · exact ⟨{ Kept.refl s with }, ⟨rfl, rfl, rfl⟩, id, .inl rfl⟩
    · exact ⟨Kept.refl t, SameGate.refl t, id, .inl rfl⟩

theorem respond_kept (s : State) (r : Response) : Kept s (s.respond r) ∧ SameGate s (s.respond r) :=
  ⟨{ Kept.refl s with }, ⟨rfl, rfl, rfl⟩⟩

/-- A raw read that goes through. -/
theorem dmaRead_ok (w : Width) (a : Word) (s t : State) (h : dmaRead w a s = .ok t) :
    ∃ v u, busRead w a s = .ok (v, u) ∧ t = u.respond (.value v) := by
  unfold dmaRead at h
  split at h
  · next v u hr => cases h; exact ⟨v, u, hr, rfl⟩
  · cases h

/-- A raw write that goes through. -/
theorem dmaWrite_ok (a : Word) (v : BusValue) (s t : State) (h : dmaWrite a v s = .ok t) :
    ∃ u, busWrite a v s = .ok u ∧ t = u.respond .nothing := by
  unfold dmaWrite at h
  split at h
  · next u hr => cases h; exact ⟨u, hr, rfl⟩
  · cases h

/-- A command presented by itself that goes through. -/
theorem issue_ok (v : Word) (c : Action) (s t : State) (h : issue v c s = .ok t) :
    ∃ u, writeCommand v c s = .ok u ∧ t = u.respond .nothing := by
  unfold issue at h
  split at h
  · next u hr => cases h; exact ⟨u, hr, rfl⟩
  · cases h

/-- Everything `readWord` can do (R141). -/
theorem readWord_ok (a : Word) (s t : State) (h : readWord a s = .ok t) :
    (s.busy = true ∧ t = (drain s).respond (.valueAndCycles s.latch s.cyclesRemaining)) ∨
    (s.busy = false ∧ ∃ v u, busRead .word a s = .ok (v, u) ∧
      t = u.respond (.valueAndCycles (widen v) s.config.tRead)) := by
  unfold readWord at h
  split at h
  · next hb => cases h; exact .inl ⟨hb, rfl⟩
  · next hb =>
    split at h
    · next v u hr => cases h; exact .inr ⟨by simpa using hb, v, u, hr, rfl⟩
    · cases h

/-- Everything `writeWord` can do (R142). -/
theorem writeWord_ok (a v : Word) (s t : State) (h : writeWord a v s = .ok t) :
    (s.busy = true ∧ t = s.respond (.cycles s.config.tWchg)) ∨
    (s.busy = false ∧ ∃ u, busWrite a (.word v) (beginWrite v s) = .ok u ∧ t = u.respond (.cycles s.config.tWchg)) := by
  unfold writeWord at h
  split at h
  · next hb => cases h; exact .inl ⟨hb, rfl⟩
  · next hb =>
    split at h
    · next u hr => cases h; exact .inr ⟨by simpa using hb, u, hr, rfl⟩
    · cases h

/-- The drain of a forced finish (R146). -/
theorem drain_cases (s : State) :
    (s.pending = none ∧ drain s = s ∧ s.cyclesRemaining = 0) ∨
    ∃ m, s.pending = some m ∧ drain s = { s with pending := none, busy := false } ∧ s.cyclesRemaining = m := by
  unfold drain State.cyclesRemaining
  cases h : s.pending with
  | none => exact .inl ⟨rfl, rfl, rfl⟩
  | some m => exact .inr ⟨m, rfl, rfl, rfl⟩

/-- The passage of time (R145). -/
theorem elapse_cases (n : Nat) (s : State) :
    (s.pending = none ∧ elapse n s = s) ∨
    (∃ m, s.pending = some m ∧ m ≤ n ∧ elapse n s = { s with pending := none, busy := false }) ∨
    ∃ m, s.pending = some m ∧ n < m ∧ elapse n s = { s with pending := some (m - n) } := by
  unfold elapse
  cases h : s.pending with
  | none => exact .inl ⟨rfl, rfl⟩
  | some m =>
    by_cases hn : m ≤ n
    · exact .inr (.inl ⟨m, rfl, hn, by simp [hn]⟩)
    · exact .inr (.inr ⟨m, rfl, by omega, by simp [hn]⟩)

theorem drain_kept (s : State) : Kept s (drain s) := by
  rcases drain_cases s with ⟨_, e, _⟩ | ⟨m, _, e, _⟩ <;> rw [e]
  · exact Kept.refl s
  · exact { Kept.refl s with }

theorem elapse_kept (n : Nat) (s : State) : Kept s (elapse n s) := by
  rcases elapse_cases n s with ⟨_, e⟩ | ⟨m, _, _, e⟩ | ⟨m, _, _, e⟩ <;> rw [e]
  · exact Kept.refl s
  · exact { Kept.refl s with }
  · exact { Kept.refl s with }

end Sys2Proof.Machine
end

