-- ==== Sys2Proof/Laws/Bus.lean ====
section
/-!
SUPPORT. What the bus primitives and the entry points answer, one lemma per case, and that the bus neither reads nor writes
the controller's fields (R151).
-/

namespace Sys2Proof.Machine

/-! The unmapped pattern (R56, R57): the low halfword of the address in both halves. -/

theorem pattern32_eq (a : Word) : pattern32 a = a.setWidth 16 ++ a.setWidth 16 := by
  have h65 : (0xFFFF#32) = BitVec.setWidth 32 (BitVec.allOnes 16) := by decide
  unfold pattern32
  rw [h65]
  apply BitVec.eq_of_getLsbD_eq
  intro i h
  rw [BitVec.getLsbD_append, BitVec.getLsbD_or, BitVec.getLsbD_and, BitVec.getLsbD_setWidth, BitVec.getLsbD_allOnes,
    BitVec.getLsbD_shiftLeft, BitVec.getLsbD_setWidth, BitVec.getLsbD_setWidth]
  by_cases hi : i < 16
  · simp [hi, h]
  · have : i - 16 < 16 := by omega
    simp [hi, h, this]

theorem pattern16_eq (a : Word) : pattern16 a = a.setWidth 16 := by
  unfold pattern16
  rw [pattern32_eq]
  apply BitVec.eq_of_getLsbD_eq
  intro i h
  rw [BitVec.getLsbD_setWidth, BitVec.getLsbD_append]
  simp [h]

theorem misaligned_word_iff (a : Word) : misaligned .word a = false ↔ a.toNat % 4 = 0 := by
  simp [misaligned]

theorem misaligned_half_iff (a : Word) : misaligned .half a = false ↔ a.toNat % 2 = 0 := by
  simp [misaligned]

/-! The bus primitives (R111, R112). -/

theorem busRead_unmapped (w : Width) (a : Word) (s : State) (h : decodeAddress s.config a = .unmapped) :
    busRead w a s = .ok (patternOf w a, s) := by
  simp only [busRead, h]

theorem busWrite_unmapped (a : Word) (v : BusValue) (s : State) (h : decodeAddress s.config a = .unmapped) :
    busWrite a v s = .ok s := by
  simp only [busWrite, h]

theorem busRead_misaligned (w : Width) (a : Word) (s : State) (dev : Device) (off : Nat)
    (h : decodeAddress s.config a = .mapped dev off) (hm : misaligned w a = true) :
    busRead w a s = .error (.misalignedAccess a w) := by
  simp only [busRead, h, hm, if_true]

theorem busWrite_misaligned (a : Word) (v : BusValue) (s : State) (dev : Device) (off : Nat)
    (h : decodeAddress s.config a = .mapped dev off) (hm : misaligned (widthOf v) a = true) :
    busWrite a v s = .error (.misalignedAccess a (widthOf v)) := by
  simp only [busWrite, h, hm, if_true]

theorem busRead_mapped (w : Width) (a : Word) (s : State) (dev : Device) (off : Nat)
    (h : decodeAddress s.config a = .mapped dev off) (hm : misaligned w a = false) :
    busRead w a s = readTarget dev w a off s := by
  simp only [busRead, h, hm, Bool.false_eq_true, if_false]

theorem busWrite_mapped (a : Word) (v : BusValue) (s : State) (dev : Device) (off : Nat)
    (h : decodeAddress s.config a = .mapped dev off) (hm : misaligned (widthOf v) a = false) :
    busWrite a v s = writeTarget dev a off v s := by
  simp only [busWrite, h, hm, Bool.false_eq_true, if_false]

/-! The raw transactions and the CPU entry points. -/

theorem dmaRead_of_ok (w : Width) (a : Word) (s t : State) (v : BusValue) (h : busRead w a s = .ok (v, t)) :
    dmaRead w a s = .ok (t.respond (.value v)) := by
  simp only [dmaRead, h]

theorem dmaRead_of_error (w : Width) (a : Word) (s : State) (k : FaultKind) (h : busRead w a s = .error k) :
    dmaRead w a s = .error k := by
  simp only [dmaRead, h]

theorem dmaWrite_of_ok (a : Word) (v : BusValue) (s t : State) (h : busWrite a v s = .ok t) :
    dmaWrite a v s = .ok (t.respond .nothing) := by
  simp only [dmaWrite, h]

theorem dmaWrite_of_error (a : Word) (v : BusValue) (s : State) (k : FaultKind) (h : busWrite a v s = .error k) :
    dmaWrite a v s = .error k := by
  simp only [dmaWrite, h]

theorem issue_of_ok (v : Word) (c : Action) (s t : State) (h : c { s with status := v } = .ok t) :
    issue v c s = .ok (t.respond .nothing) := by
  simp only [issue, writeCommand, h]

theorem issue_of_error (v : Word) (c : Action) (s : State) (k : FaultKind) (h : c { s with status := v } = .error k) :
    issue v c s = .error k := by
  simp only [issue, writeCommand, h]

theorem readWord_busy (a : Word) (s : State) (hb : s.busy = true) :
    readWord a s = .ok ((drain s).respond (.valueAndCycles s.latch s.cyclesRemaining)) := if_pos hb

theorem readWord_idle (a : Word) (s t : State) (v : BusValue) (hb : s.busy = false)
    (h : busRead .word a s = .ok (v, t)) :
    readWord a s = .ok (t.respond (.valueAndCycles (widen v) s.config.tRead)) := by
  unfold readWord
  rw [if_neg (by rw [hb]; exact Bool.false_ne_true), h]

theorem readWord_idle_error (a : Word) (s : State) (k : FaultKind) (hb : s.busy = false)
    (h : busRead .word a s = .error k) : readWord a s = .error k := by
  unfold readWord
  rw [if_neg (by rw [hb]; exact Bool.false_ne_true), h]

theorem writeWord_busy (a v : Word) (s : State) (hb : s.busy = true) :
    writeWord a v s = .ok (s.respond (.cycles s.config.tWchg)) := if_pos hb

/-! The controller's fields are no concern of the bus (R151). -/

/-- A state with other values in the controller. -/
def withGate (b : Bool) (l : Word) (p : Option Nat) (s : State) : State :=
  { s with busy := b, latch := l, pending := p }

theorem beginWrite_eq (v : Word) (s : State) : beginWrite v s = withGate true v (some s.config.tWrite) s := rfl

theorem bridgeConnect_withGate (b : Bool) (l : Word) (p : Option Nat) (q : List Byte) (s : State) :
    bridgeConnect q (withGate b l p s) = ((bridgeConnect q s).1, withGate b l p (bridgeConnect q s).2) := by
  show (match (Config.drawBool s.draws, withGate b l p { teardown s with draws := s.draws + 1 }) with
    | (true, t) => (true, postEvent (hostOf q) { t with endpoint := some (.client (hostOf q)) })
    | (false, t) => (false, t)) = (_, withGate b l p (bridgeConnect q s).2)
  unfold bridgeConnect drawOk
  simp only [show (teardown s).draws = s.draws from rfl]
  cases Config.drawBool s.draws <;> rfl

theorem bridgeServe_withGate (b : Bool) (l : Word) (p : Option Nat) (q : List Byte) (s : State) :
    bridgeServe q (withGate b l p s) = ((bridgeServe q s).1, withGate b l p (bridgeServe q s).2) := by
  show (match (Config.drawBool s.draws, withGate b l p { teardown s with draws := s.draws + 1 }) with
    | (true, t) => (true, { t with endpoint := some (.server q) })
    | (false, t) => (false, t)) = (_, withGate b l p (bridgeServe q s).2)
  unfold bridgeServe drawOk
  simp only [show (teardown s).draws = s.draws from rfl]
  cases Config.drawBool s.draws <;> rfl

theorem bridgeSend_withGate (b : Bool) (l : Word) (p : Option Nat) (q : List Byte) (s : State) :
    bridgeSend q (withGate b l p s) = withGate b l p (bridgeSend q s) := by
  rcases s with ⟨cfg, bu, la, pe, st, d0, d1, tr, rr, rb, stg, pr, sw, rom, ep, ol, dl, f, inp, resp, dr⟩
  cases ep <;> rfl

theorem netDispatch_withGate (b : Bool) (l : Word) (p : Option Nat) (h : HeaderType) (q : List Byte) (s : State) :
    netDispatch h q (withGate b l p s) = ((netDispatch h q s).1, withGate b l p (netDispatch h q s).2) := by
  cases h
  · exact bridgeConnect_withGate b l p q s
  · exact bridgeServe_withGate b l p q s
  · exact congrArg (Prod.mk true) (bridgeSend_withGate b l p q s)
  · rfl

theorem transmitFinish_withGate (b : Bool) (l : Word) (p : Option Nat) (ok : Bool) (s : State) :
    transmitFinish ok (withGate b l p s) = withGate b l p (transmitFinish ok s) := by
  cases ok <;> rfl

theorem genericRequest_withGate (b : Bool) (l : Word) (p : Option Nat) (q : List Byte) (s : State) :
    genericRequest q (withGate b l p s) = ((genericRequest q s).1, withGate b l p (genericRequest q s).2) := by
  unfold genericRequest
  split
  · rfl
  · next t q =>
    show (match headerOf s.config.headers t with
      | none => (true, withGate b l p s)
      | some h => netDispatch h q (withGate b l p s)) = _
    cases headerOf s.config.headers t with
    | none => rfl
    | some h => exact netDispatch_withGate b l p h q s

theorem sendLegacy_withGate (b : Bool) (l : Word) (p : Option Nat) (t : HeaderType) (x q : List Byte) (s : State) :
    sendLegacy t x q (withGate b l p s) = withGate b l p (sendLegacy t x q s) := by
  unfold sendLegacy finishRequest
  rw [show stageTransmit x (withGate b l p s) = withGate b l p (stageTransmit x s) from rfl,
    netDispatch_withGate, transmitFinish_withGate]

theorem runCommand_withGate (b : Bool) (l : Word) (p : Option Nat) (c : Command) (s : State) :
    runCommand c (withGate b l p s) = (runCommand c s).map (withGate b l p) := by
  cases c
  case txReady => rfl
  case rxReady =>
    rcases s with ⟨cfg, bu, la, pe, st, d0, d1, tr, rr, rb, stg, pr, sw, rom, ep, ol, dl, f, inp, resp, dr⟩
    cases rr <;> rfl
  case txData =>
    simp only [runCommand, cmdTxData]
    show (if s.genericInRange then _ else _) = _
    cases s.genericInRange
    · simp only [Bool.false_eq_true, if_false]; rfl
    · simp only [if_true, Except.map]
      rw [show stageTransmit ((withGate b l p s).rom.readBytes (withGate b l p s).transferAddress
        (withGate b l p s).transferLength) (withGate b l p s) =
        withGate b l p (stageTransmit (s.rom.readBytes s.transferAddress s.transferLength) s) from rfl]
      unfold finishRequest
      rw [genericRequest_withGate, transmitFinish_withGate]
      rfl
  case txDataLegacy =>
    simp only [runCommand, cmdTxDataLegacy]
    show (if s.legacyInRange 8 then _ else _) = _
    cases s.legacyInRange 8
    · simp only [Bool.false_eq_true, if_false]; rfl
    · simp only [if_true]
      show (if s.rom.word s.legacyOffset = s.config.legacySig then _ else _) = _
      by_cases h1 : s.rom.word s.legacyOffset = s.config.legacySig
      · simp only [if_pos h1]
        show (if (headerSize (s.rom.word (s.legacyOffset + 4))).toNat ≤ s.transferLength then _ else _) = _
        by_cases h2 : (headerSize (s.rom.word (s.legacyOffset + 4))).toNat ≤ s.transferLength
        · simp only [if_pos h2]
          show (match headerOf s.config.headers (headerTypeByte (s.rom.word (s.legacyOffset + 4))) with
            | some t => _ | none => _) = _
          cases headerOf s.config.headers (headerTypeByte (s.rom.word (s.legacyOffset + 4))) with
          | none => rfl
          | some t =>
            exact congrArg Except.ok (sendLegacy_withGate b l p t
              (s.rom.readBytes (s.legacyOffset + 8) s.transferLength)
              ((s.rom.readBytes (s.legacyOffset + 8) s.transferLength).take
                (headerSize (s.rom.word (s.legacyOffset + 4))).toNat) s)
        · simp only [if_neg h2]; rfl
      · simp only [if_neg h1]; rfl
  case rxData =>
    simp only [runCommand, cmdRxData]
    show (if s.genericInRange then _ else _) = _
    cases s.genericInRange <;> simp only [if_true, Bool.false_eq_true, if_false] <;> rfl
  case rxDataLegacy =>
    simp only [runCommand, cmdRxDataLegacy]
    show (if s.legacyInRange 0 then _ else _) = _
    cases s.legacyInRange 0 <;> simp only [if_true, Bool.false_eq_true, if_false] <;> rfl
  case rxBusy => rfl
  case config =>
    simp only [runCommand, cmdConfig]
    show (if s.data0 = s.config.optSdramWritable then _ else _) = _
    by_cases h : s.data0 = s.config.optSdramWritable
    · simp only [if_pos h]; rfl
    · simp only [if_neg h]; rfl
  case unrecognized => rfl

theorem regWrite_withGate (b : Bool) (l : Word) (p : Option Nat) (off : Nat) (v : Word) (s : State) :
    regWrite off v (withGate b l p s) = (regWrite off v s).map (withGate b l p) := by
  simp only [regWrite]
  cases registerAt off
  · exact runCommand_withGate b l p (commandOf s.config.commands (codeOf v)) { s with status := v }
  · rfl
  · rfl
  · rfl

/-- A bus write does the same whatever the controller holds, and leaves what it holds. -/
theorem busWrite_withGate (b : Bool) (l : Word) (p : Option Nat) (a : Word) (v : BusValue) (s : State) :
    busWrite a v (withGate b l p s) = (busWrite a v s).map (withGate b l p) := by
  unfold busWrite
  show (match decodeAddress s.config a with | .unmapped => _ | .mapped dev off => _) = _
  cases decodeAddress s.config a with
  | unmapped => rfl
  | mapped dev off =>
    simp only
    cases misaligned (widthOf v) a
    · simp only [Bool.false_eq_true, if_false]
      cases dev
      case cfg =>
        cases v with
        | half x => rfl
        | word x => exact regWrite_withGate b l p off x s
      case rom =>
        simp only [writeTarget, romBusWrite]
        show Except.ok (if s.sdramWritable && decide (off + nbytes (widthOf v) ≤ s.config.romSize) then _ else _) = _
        cases s.sdramWritable && decide (off + nbytes (widthOf v) ≤ s.config.romSize) <;>
          simp only [if_true, Bool.false_eq_true, if_false] <;> rfl
      all_goals rfl
    · rfl

/-- A bus read does the same whatever the controller holds, and leaves what it holds. -/
theorem busRead_withGate (b : Bool) (l : Word) (p : Option Nat) (w : Width) (a : Word) (s : State) :
    busRead w a (withGate b l p s) = (busRead w a s).map (fun r => (r.1, withGate b l p r.2)) := by
  unfold busRead
  show (match decodeAddress s.config a with | .unmapped => _ | .mapped dev off => _) = _
  cases decodeAddress s.config a with
  | unmapped => rfl
  | mapped dev off =>
    simp only
    cases misaligned w a
    · simp only [Bool.false_eq_true, if_false]
      cases dev
      case cfg => cases w <;> rfl
      case rom =>
        simp only [readTarget, romBusRead]
        show Except.ok (if off + nbytes w ≤ s.config.romSize then _ else _) = _
        by_cases h : off + nbytes w ≤ s.config.romSize
        · simp only [if_pos h]; cases w <;> rfl
        · simp only [if_neg h]; cases w <;> rfl
      all_goals (cases w <;> rfl)
    · rfl

theorem writeWord_idle (a v : Word) (s t : State) (hb : s.busy = false) (h : busWrite a (.word v) s = .ok t) :
    writeWord a v s = .ok ((withGate true v (some s.config.tWrite) t).respond (.cycles s.config.tWchg)) := by
  unfold writeWord
  rw [if_neg (by rw [hb]; exact Bool.false_ne_true), beginWrite_eq, busWrite_withGate, h]
  rfl

theorem writeWord_idle_error (a v : Word) (s : State) (k : FaultKind) (hb : s.busy = false)
    (h : busWrite a (.word v) s = .error k) : writeWord a v s = .error k := by
  unfold writeWord
  rw [if_neg (by rw [hb]; exact Bool.false_ne_true), beginWrite_eq, busWrite_withGate, h]
  rfl

end Sys2Proof.Machine
end

