-- ==== Sys2Proof/Laws/PerInstr.lean ====
section
/-!
SUPPORT. Per-instruction laws. `TableRow`: the encoding of every well-formed instruction lies in its row of
spec/opcode_table.json, by the row's match and mask: the op byte of a descriptor (R82, R83), the code field of a command
word (R85).
-/

namespace Sys2Proof.Laws

/-- The op byte of a presented descriptor. -/
def opField : Presented → Option Byte
  | .descriptor d => some d.op
  | .command _ => none

/-- The code field of a presented command word. -/
def codeField : Presented → Option Byte
  | .descriptor _ => none
  | .command v => some (codeOf v)

theorem codeOf_commandWord (hi : BitVec 24) (code : Byte) : codeOf (commandWord hi code) = code := by
  unfold codeOf commandWord
  ext i h
  simp only [BitVec.getElem_setWidth, BitVec.getLsbD_append, if_pos h, BitVec.getLsbD_eq_getElem h]

theorem upperOf_commandWord (hi : BitVec 24) (code : Byte) : upperOf (commandWord hi code) = hi := by
  unfold upperOf commandWord
  ext i h
  simp only [BitVec.getElem_extractLsb', BitVec.getLsbD_append, if_neg (show ¬ 8 + i < 8 by omega)]
  rw [Nat.add_sub_cancel_left, BitVec.getLsbD_eq_getElem h]

/-- A command word is its upper bits and its code. -/
theorem commandWord_eq (v : Word) : commandWord (upperOf v) (codeOf v) = v := by
  unfold upperOf codeOf commandWord
  ext i h
  simp only [BitVec.getElem_append, BitVec.getElem_setWidth, BitVec.getElem_extractLsb']
  split
  · rw [← BitVec.getLsbD_eq_getElem]
  · rw [← BitVec.getLsbD_eq_getElem]; congr 1; omega

/-- The encoding of an instruction lies in its row of the opcode table. -/
def TableRow.Statement (i : Instr) : Prop :=
  ∀ c : Config, i.wf c = true →
    match i with
    | .cpuRw _ => opField (encode c i) = some 0x01#8
    | .cpuWw _ _ => opField (encode c i) = some 0x03#8
    | .dmaRh _ => opField (encode c i) = some 0x04#8
    | .dmaRw _ => opField (encode c i) = some 0x05#8
    | .dmaWh _ _ => opField (encode c i) = some 0x06#8
    | .dmaWw _ _ => opField (encode c i) = some 0x07#8
    | .advance _ => opField (encode c i) = some 0x10#8
    | .forceFinish => opField (encode c i) = some 0x11#8
    | .isBusy => opField (encode c i) = some 0x12#8
    | .latchedValue => opField (encode c i) = some 0x13#8
    | .reset => opField (encode c i) = some 0x14#8
    | .inbound _ => opField (encode c i) = some 0x20#8
    | .txReady _ => codeField (encode c i) = some c.commands.txReady
    | .rxReady _ => codeField (encode c i) = some c.commands.rxReady
    | .txData _ => codeField (encode c i) = some c.commands.txData
    | .txDataLegacy _ => codeField (encode c i) = some c.commands.txDataLegacy
    | .rxData _ => codeField (encode c i) = some c.commands.rxData
    | .rxDataLegacy _ => codeField (encode c i) = some c.commands.rxDataLegacy
    | .rxBusy _ => codeField (encode c i) = some c.commands.rxBusy
    | .config _ => codeField (encode c i) = some c.commands.config
    | .unrecognized _ => ∀ k ∈ c.commands.all, codeField (encode c i) ≠ some k

theorem TableRow.cpuRw (addr : Word) : TableRow.Statement (.cpuRw addr) := fun _ _ => rfl
theorem TableRow.cpuWw (addr v : Word) : TableRow.Statement (.cpuWw addr v) := fun _ _ => rfl
theorem TableRow.dmaRh (addr : Word) : TableRow.Statement (.dmaRh addr) := fun _ _ => rfl
theorem TableRow.dmaRw (addr : Word) : TableRow.Statement (.dmaRw addr) := fun _ _ => rfl
theorem TableRow.dmaWh (addr : Word) (v : Half) : TableRow.Statement (.dmaWh addr v) := fun _ _ => rfl
theorem TableRow.dmaWw (addr v : Word) : TableRow.Statement (.dmaWw addr v) := fun _ _ => rfl
theorem TableRow.advance (n : Nat) : TableRow.Statement (.advance n) := fun _ _ => rfl
theorem TableRow.forceFinish : TableRow.Statement (.forceFinish) := fun _ _ => rfl
theorem TableRow.isBusy : TableRow.Statement (.isBusy) := fun _ _ => rfl
theorem TableRow.latchedValue : TableRow.Statement (.latchedValue) := fun _ _ => rfl
theorem TableRow.reset : TableRow.Statement (.reset) := fun _ _ => rfl
theorem TableRow.inbound (p : List Byte) : TableRow.Statement (.inbound p) := fun _ _ => rfl
theorem TableRow.txReady (hi : BitVec 24) : TableRow.Statement (.txReady hi) :=
  fun _ _ => congrArg some (codeOf_commandWord hi _)
theorem TableRow.rxReady (hi : BitVec 24) : TableRow.Statement (.rxReady hi) :=
  fun _ _ => congrArg some (codeOf_commandWord hi _)
theorem TableRow.txData (hi : BitVec 24) : TableRow.Statement (.txData hi) :=
  fun _ _ => congrArg some (codeOf_commandWord hi _)
theorem TableRow.txDataLegacy (hi : BitVec 24) : TableRow.Statement (.txDataLegacy hi) :=
  fun _ _ => congrArg some (codeOf_commandWord hi _)
theorem TableRow.rxData (hi : BitVec 24) : TableRow.Statement (.rxData hi) :=
  fun _ _ => congrArg some (codeOf_commandWord hi _)
theorem TableRow.rxDataLegacy (hi : BitVec 24) : TableRow.Statement (.rxDataLegacy hi) :=
  fun _ _ => congrArg some (codeOf_commandWord hi _)
theorem TableRow.rxBusy (hi : BitVec 24) : TableRow.Statement (.rxBusy hi) :=
  fun _ _ => congrArg some (codeOf_commandWord hi _)
theorem TableRow.config (hi : BitVec 24) : TableRow.Statement (.config hi) :=
  fun _ _ => congrArg some (codeOf_commandWord hi _)
theorem TableRow.unrecognized (v : Word) : TableRow.Statement (.unrecognized v) := by
  intro c h k hk he
  simp only [encode, codeField, Option.some.injEq] at he
  subst k
  simp only [Instr.wf, Bool.not_eq_true', List.contains_eq_mem, decide_eq_false_iff_not] at h
  exact h hk

end Sys2Proof.Laws
end

