-- ==== Sys2Proof/Laws/Actions.lean ====
section
/-!
SUPPORT. Encodings under distinct codes, the register block's addresses, headers and hosts, and what every instruction's action
keeps, faults on, or leaves in `status`: one lemma over all instructions for each.
-/

namespace Sys2Proof.Machine
open Sys2Proof.Laws

@[simp] theorem errOf_setErr (v : Word) : errOf (setErr v) = true := by
  have : (1#32 <<< errBit).getLsbD errBit = true := by decide
  unfold errOf setErr
  rw [BitVec.getLsbD_or, this, Bool.or_true]

@[simp] theorem cpuBusyOf_setErr (v : Word) : cpuBusyOf (setErr v) = cpuBusyOf v := by
  have : (1#32 <<< errBit).getLsbD cpuBusyBit = false := by decide
  unfold cpuBusyOf setErr
  rw [BitVec.getLsbD_or, this, Bool.or_false]

/-- With distinct codes each code selects its command (R85, R180). -/
theorem commandOf_of_nodup (c : CommandCodes) (h : c.all.Nodup) :
    commandOf c c.txReady = .txReady ∧ commandOf c c.rxReady = .rxReady ∧ commandOf c c.txData = .txData ∧
    commandOf c c.txDataLegacy = .txDataLegacy ∧ commandOf c c.rxData = .rxData ∧
    commandOf c c.rxDataLegacy = .rxDataLegacy ∧ commandOf c c.rxBusy = .rxBusy ∧ commandOf c c.config = .config := by
  simp [CommandCodes.all] at h
  obtain ⟨h1, h2, h3, h4, h5, h6, h7⟩ := h
  unfold commandOf
  simp_all [eq_comm]

/-- A row of a well-formed table that holds an address gives its target. -/
theorem decodeAddress_of_row (c : Config) (a : Word) (h : c.windows.wf = true) (r : Window) (hr : r ∈ windowRows c.windows)
    (h1 : r.low ≤ a.toNat) (h2 : a.toNat ≤ r.high) : decodeAddress c a = targetOf c r a.toNat := by
  unfold decodeAddress
  rw [windowOf_of_holds c.windows _ h r hr h1 h2]

/-- Where the register block's offsets lie. -/
theorem decodeAddress_block (c : Config) (h : c.windows.wf = true) (a : Word) (off : Nat) (ho : off < 16)
    (ha : a.toNat = c.windows.cfgBase + off) : decodeAddress c a = .mapped .cfg off := by
  rw [decodeAddress_of_row c a h ⟨.cfg, c.windows.cfgBase, c.windows.cfgBase + 15⟩ (by simp [windowRows])
    (by show c.windows.cfgBase ≤ a.toNat; omega) (by show a.toNat ≤ c.windows.cfgBase + 15; omega)]
  show Target.mapped .cfg (a.toNat - c.windows.cfgBase) = _
  rw [ha, Nat.add_sub_cancel_left]

/-- With distinct codes each code selects its request (R87). -/
theorem headerOf_of_nodup (c : HeaderCodes) (hc : c.all.Nodup) (b : Byte) (h : HeaderType)
    (hb : (b = c.connect ∧ h = .connect) ∨ (b = c.server ∧ h = .server) ∨ (b = c.send ∧ h = .send) ∨
      (b = c.text ∧ h = .text)) : headerOf c b = some h := by
  simp [HeaderCodes.all] at hc
  obtain ⟨h1, h2, h3⟩ := hc
  unfold headerOf
  rcases hb with ⟨rfl, rfl⟩ | ⟨rfl, rfl⟩ | ⟨rfl, rfl⟩ | ⟨rfl, rfl⟩ <;> simp_all [eq_comm]

theorem headerOf_none (c : HeaderCodes) (t : Byte) (h : t ∉ c.all) : headerOf c t = none := by
  simp [HeaderCodes.all] at h
  simp [headerOf, h]

/-- The header word's fields, by bytes (R88). -/
theorem headerWord_fields (m : Memory) (o : Nat) :
    headerTypeByte (m.word o) = m.read o ∧
    headerSize (m.word o) = m.read (o + 1) ++ m.read (o + 2) ++ m.read (o + 3) := by
  constructor
  · unfold headerTypeByte Memory.word be32
    apply BitVec.eq_of_getLsbD_eq
    intro i h
    simp only [BitVec.getLsbD_extractLsb', BitVec.getLsbD_append, h, decide_true, Bool.true_and]
    repeat' split
    all_goals first | omega | (congr 1; omega)
  · unfold headerSize Memory.word be32
    apply BitVec.eq_of_getLsbD_eq
    intro i h
    simp only [BitVec.getLsbD_extractLsb', BitVec.getLsbD_append, h, decide_true, Bool.true_and, Nat.zero_add]
    repeat' split
    all_goals first | omega | rfl

theorem Memory.take_readBytes (m : Memory) (o n k : Nat) (h : k ≤ n) : (m.readBytes o n).take k = m.readBytes o k := by
  apply List.ext_getElem
  · simp; omega
  · intro i h1 h2
    rw [List.getElem_take, Memory.getElem_readBytes, Memory.getElem_readBytes]

/-- The host of a connect payload (R212). -/
theorem hostOf_eq (p h q : List Byte) (hh : ∀ b ∈ h, b ≠ 0x3A#8) (hp : p = h ∨ p = h ++ 0x3A#8 :: q) : hostOf p = h := by
  have hx : ∀ b ∈ h, (b != colon) = true := fun b hb => by simpa [colon] using hh b hb
  unfold hostOf
  rcases hp with rfl | rfl
  · exact List.takeWhile_eq_self_iff.2 hx
  · rw [List.takeWhile_append_of_pos hx]; simp [colon]

/-- Every instruction but RESET that goes through keeps what `Kept` says. -/
theorem action_kept (i : Instr) (s t : State) (hi : i ≠ .reset) (he : enabled i s) (h : actionOf i s = .ok t) : Kept s t := by
  have cmd : ∀ v c, issue v (runCommand c) s = .ok t → Kept s t := by
    intro v c h
    obtain ⟨u, hu, rfl⟩ := issue_ok _ _ _ _ h
    exact (writeCommand_kept v c s u hu).1.trans (respond_kept _ _).1
  cases i
  case cpuRw a =>
    rcases readWord_ok a s t h with ⟨_, rfl⟩ | ⟨_, v, u, hr, rfl⟩
    · exact (drain_kept s).trans (respond_kept _ _).1
    · obtain ⟨_, rfl | rfl⟩ := busRead_ok _ _ _ _ _ hr
      · exact (respond_kept _ _).1
      · exact (draw_kept s).1.trans (respond_kept _ _).1
  case cpuWw a v =>
    rcases writeWord_ok a v s t h with ⟨_, rfl⟩ | ⟨_, u, hr, rfl⟩
    · exact (respond_kept _ _).1
    · have := (busWrite_kept _ _ _ _ hr).1
      exact Kept.trans (show Kept s (beginWrite v s) from { Kept.refl s with }) (this.trans (respond_kept _ _).1)
  case dmaRh a =>
    obtain ⟨v, u, hr, rfl⟩ := dmaRead_ok _ _ _ _ h
    obtain ⟨_, rfl | rfl⟩ := busRead_ok _ _ _ _ _ hr
    · exact (respond_kept _ _).1
    · exact (draw_kept s).1.trans (respond_kept _ _).1
  case dmaRw a =>
    obtain ⟨v, u, hr, rfl⟩ := dmaRead_ok _ _ _ _ h
    obtain ⟨_, rfl | rfl⟩ := busRead_ok _ _ _ _ _ hr
    · exact (respond_kept _ _).1
    · exact (draw_kept s).1.trans (respond_kept _ _).1
  case dmaWh a v =>
    obtain ⟨u, hr, rfl⟩ := dmaWrite_ok _ _ _ _ h
    exact (busWrite_kept _ _ _ _ hr).1.trans (respond_kept _ _).1
  case dmaWw a v =>
    obtain ⟨u, hr, rfl⟩ := dmaWrite_ok _ _ _ _ h
    exact (busWrite_kept _ _ _ _ hr).1.trans (respond_kept _ _).1
  case advance n => cases h; exact (elapse_kept n s).trans (respond_kept _ _).1
  case forceFinish => cases h; exact (drain_kept s).trans (respond_kept _ _).1
  case isBusy => cases h; exact (respond_kept _ _).1
  case latchedValue => cases h; exact (respond_kept _ _).1
  case reset => exact absurd rfl hi
  case inbound p => cases h; exact (postEvent_kept p s he.1).trans (respond_kept _ _).1
  case txReady x => exact cmd _ .txReady h
  case rxReady x => exact cmd _ .rxReady h
  case txData x => exact cmd _ .txData h
  case txDataLegacy x => exact cmd _ .txDataLegacy h
  case rxData x => exact cmd _ .rxData h
  case rxDataLegacy x => exact cmd _ .rxDataLegacy h
  case rxBusy x => exact cmd _ .rxBusy h
  case config x => exact cmd _ .config h
  case unrecognized v => exact cmd _ .unrecognized h

/-- A bus read raises no ProtocolFatal (R242). -/
theorem busRead_error (w : Width) (a : Word) (s : State) (k : FaultKind) (h : busRead w a s = .error k) : k.code > 3 := by
  unfold busRead at h
  split at h
  · cases h
  · split at h
    · cases h; show 5 > 3; decide
    · rename_i dev off _ _
      cases dev <;> simp only [readTarget] at h <;> try cases h
      cases w <;> cases h; show 6 > 3; decide

theorem writeCommand_error (v : Word) (c : Command) (s : State) (k : FaultKind)
    (h : writeCommand v (runCommand c) s = .error k) : k.code > 3 ∨ c = .txDataLegacy := by
  cases c <;> simp only [writeCommand, runCommand, cmdTxReady, cmdRxReady, cmdTxData, cmdRxData, cmdRxDataLegacy, cmdRxBusy,
    cmdConfig, cmdUnrecognized] at h
  case txDataLegacy => exact .inr rfl
  all_goals (try split at h) <;> cases h
  all_goals left; show 4 > 3; decide

/-- A bus write raises a ProtocolFatal only by a legacy transmit written to the command register (R242). -/
theorem busWrite_error (a : Word) (v : BusValue) (s : State) (k : FaultKind) (h : busWrite a v s = .error k) :
    k.code > 3 ∨ ∃ off x, decodeAddress s.config a = .mapped .cfg off ∧ registerAt off = .commandStatus ∧
      a.toNat % 4 = 0 ∧ v = .word x ∧ commandOf s.config.commands (codeOf x) = .txDataLegacy := by
  unfold busWrite at h
  split at h
  · cases h
  · split at h
    · cases h; left; show 5 > 3; decide
    · rename_i dev off hd hm
      cases dev <;> simp only [writeTarget] at h <;> try cases h
      cases v with
      | half x => cases h; left; show 6 > 3; decide
      | word x =>
        simp only [regWrite] at h
        split at h <;> try cases h
        rename_i ho
        rcases writeCommand_error x (commandOf s.config.commands (codeOf x)) s k h with h | h
        · exact .inl h
        · exact .inr ⟨off, x, hd, ho, by simpa [misaligned, widthOf] using hm, rfl, h⟩

/-- After a command, `status` has bit 30 only where its word had it. -/
theorem writeCommand_bit30 (v : Word) (c : Command) (s t : State) (h : writeCommand v (runCommand c) s = .ok t)
    (h30 : t.status.getLsbD 30 = true) : v.getLsbD 30 = true := by
  have fin : ∀ r : Bool × State, (finishRequest r).status.getLsbD 30 = true → r.2.status.getLsbD 30 = true := by
    intro r hr
    unfold finishRequest at hr
    rcases transmitFinish_status r.1 r.2 with e | e <;> rw [e] at hr
    · simp at hr
    · exact (cpuBusyOf_setErr _).symm.trans hr
  have nd : ∀ hh q (u : State), (netDispatch hh q u).2.status = u.status := by
    intro hh p u
    rcases netDispatch_cases hh p u with ⟨_, _, e⟩ | ⟨_, _, e⟩ | ⟨_, _, e⟩ | ⟨_, _, e⟩ | ⟨_, x, _, e⟩ | ⟨_, _, e⟩ | ⟨_, e⟩ <;>
      rw [e] <;> rfl
  cases c <;> simp only [writeCommand, runCommand] at h
  case txReady => cases h; simp at h30
  case rxReady =>
    simp only [cmdRxReady] at h
    split at h <;> cases h <;> exact h30
  case txData =>
    obtain ⟨_, rfl⟩ := cmdTxData_ok _ _ h
    have := fin _ h30
    let b := s.rom.readBytes s.transferAddress s.transferLength
    change (genericRequest b (stageTransmit b { s with status := v })).2.status.getLsbD 30 = true at this
    rcases genericRequest_cases b (stageTransmit b { s with status := v }) with e | ⟨t, p, hh, _, _, e⟩ <;> rw [e] at this
    · exact this
    · rw [nd] at this; exact this
  case txDataLegacy =>
    obtain ⟨_, _, _, hd, _, rfl⟩ := cmdTxDataLegacy_ok _ _ h
    have := fin _ h30
    rw [nd] at this; exact this
  case rxData => simp only [cmdRxData] at h; split at h <;> cases h; exact h30
  case rxDataLegacy => simp only [cmdRxDataLegacy] at h; split at h <;> cases h; exact h30
  case rxBusy => cases h; exact h30
  case config => simp only [cmdConfig] at h; split at h <;> cases h <;> exact h30
  case unrecognized => cases h; simp at h30

/-- After a bus write, `status` has bit 30 only where it had it, or where a word written to the command register has it. -/
theorem busWrite_bit30 (a : Word) (x : BusValue) (s t : State) (h : busWrite a x s = .ok t)
    (h30 : t.status.getLsbD 30 = true) :
    s.status.getLsbD 30 = true ∨ ∃ off v, decodeAddress s.config a = .mapped .cfg off ∧ registerAt off = .commandStatus ∧
      a.toNat % 4 = 0 ∧ x = .word v ∧ v.getLsbD 30 = true := by
  rcases busWrite_cases a x s t h with rfl | ⟨off, _, _, hl, rfl⟩ | ⟨dev, off, _, rfl⟩ | ⟨off, x, hd, hm, rfl, hr⟩
  · exact .inl h30
  · exact .inl h30
  · exact .inl h30
  · rcases regWrite_cases off x s t hr with ⟨ho, hc⟩ | rfl | rfl | rfl
    · exact .inr ⟨off, x, hd, ho, hm, rfl, writeCommand_bit30 _ _ _ _ hc h30⟩
    all_goals exact .inl h30

end Sys2Proof.Machine
end

