-- ==== Sys2Proof/Tests/Slice0.lean ====
section
/-!
SUPPORT. Tests: an ill-formed term for each check of WellFormed, the words of the encodings written out, single steps of
95_test_vectors.md (each names its vector), and for each statement with hypotheses a state and operands that meet them.
-/

namespace Sys2Proof.Tests
open Sys2Proof Sys2Proof.Machine

/-! ## States and helpers -/

/-- The common configuration of 95_test_vectors.md with a value for M and for the port. -/
def common : Config := { Config.standard with versionMagic := 0xC0DE0001#32, defaultPort := 9000#16 }

/-- Every peripheral present. -/
def full : Config :=
  { common with ddPresent := true, ramPresent := true, flashPresent := true, viewerPresent := true }

/-- The common start state. -/
def start : State := { State.reset with config := common }

/-- The start state with an image in the ROM store. -/
def image (m : Memory) : State := { start with rom := m }

/-- The start state with arguments in the data registers. -/
def args (s : State) (l a : Word) : State := { s with data0 := l, data1 := a }

/-- V52: a CPU word write of 5 in flight. -/
def inFlight : State := { start with busy := true, latch := 5#32, pending := some 400 }

/-- The image L1 of 95_test_vectors.md with its signature's first byte, type and size as given. -/
def legacyImage (first type size : Byte) : Memory :=
  [(0x100, first), (0x101, 0x52#8), (0x102, 0x45#8), (0x103, 0x53#8), (0x104, type)] ++
  (if size = 0#8 then [] else [(0x107, size)]) ++ [(0x108, 0x68#8), (0x109, 0x69#8)]

/-- L1 under the arguments of V84, with an endpoint. -/
def legacy (first type size : Byte) : State :=
  { args (image (legacyImage first type size)) 2#32 0x10000100#32 with endpoint := some (.client [0x68#8]) }

/-- "abc" in the staging buffer. -/
def abc : State := { start with staging := [0x61#8, 0x62#8, 0x63#8] ++ List.replicate 509 0#8 }

/-- The state an outcome gives. -/
def stateOf : Host.Outcome State Fault Refusal → State
  | .next t => t
  | .fault _ => start
  | .refused _ => start

/-- The state after one transaction. -/
def after (i : Instr) (s : State) : State := stateOf (exec i s)

/-! ## Well-formedness: each check refuses an ill-formed term -/

theorem test_wf_accepts : common.wf = true ∧ full.wf = true ∧ (Instr.dmaRw 0#32).wf common = true := by decide

theorem test_wf_windows_low : ({ WindowTable.standard with ddC2s := 0 } : WindowTable).wf = false := by decide
theorem test_wf_windows_ddC2s : ({ WindowTable.standard with ddC2s := 0x05000400 } : WindowTable).wf = false := by decide
theorem test_wf_windows_ddDs : ({ WindowTable.standard with ddDs := 0x05000500 } : WindowTable).wf = false := by decide
theorem test_wf_windows_ddCtrl : ({ WindowTable.standard with ddCtrl := 0x05000580 } : WindowTable).wf = false := by decide
theorem test_wf_windows_ddMs : ({ WindowTable.standard with ddMs := 0x050005C0 } : WindowTable).wf = false := by decide
theorem test_wf_windows_gap1 : ({ WindowTable.standard with gap1 := 0x06000000 } : WindowTable).wf = false := by decide
theorem test_wf_windows_ddIpl : ({ WindowTable.standard with ddIpl := 0x06400000 } : WindowTable).wf = false := by decide
theorem test_wf_windows_gap2 : ({ WindowTable.standard with gap2 := 0x08000000 } : WindowTable).wf = false := by decide
theorem test_wf_windows_save : ({ WindowTable.standard with cartSave := 0x10000000 } : WindowTable).wf = false := by decide
theorem test_wf_windows_rom : ({ WindowTable.standard with cartRom := 0x13FF0000 } : WindowTable).wf = false := by decide
theorem test_wf_windows_viewer : ({ WindowTable.standard with viewer := 0x14000000 } : WindowTable).wf = false := by decide
theorem test_wf_windows_top : ({ WindowTable.standard with cfgBase := 0xFFFFFFF0 } : WindowTable).wf = false := by decide
theorem test_wf_windows_align : ({ WindowTable.standard with cfgBase := 0x14000008 } : WindowTable).wf = false := by decide

theorem test_wf_codes_distinct :
    ({ CommandCodes.standard with config := 0x54#8 } : CommandCodes).wf = false := by decide

theorem test_wf_headers_distinct :
    ({ HeaderCodes.standard with text := 0x01#8 } : HeaderCodes).wf = false := by decide

theorem test_wf_rom_fits : ({ common with romSize := 0x3FF0001 } : Config).romFits = false := by decide

theorem test_wf_latency : ({ common with tWrite := 0 } : Config).wf = false := by decide

/-- R217: no INBOUND of 513 bytes. -/
theorem test_wf_inbound : (Instr.inbound (List.replicate 513 0#8)).wf common = false := by decide +kernel

/-- R85: 0x54 is a command's code, so a word with it is not unrecognized. -/
theorem test_wf_unrecognized : (Instr.unrecognized 0x12345654#32).wf common = false := by decide

/-! ## Decoding: the words of R82, R83 and R85, bit by bit -/

theorem test_decode_cpuRw : decode common (.descriptor ⟨0b00000001#8, 0x14000008#32, .unused⟩) =
    .ok (.cpuRw 0x14000008#32) := rfl
theorem test_decode_cpuWw : decode common (.descriptor ⟨0b00000011#8, 0x14000004#32, .word 0xAA#32⟩) =
    .ok (.cpuWw 0x14000004#32 0xAA#32) := rfl
theorem test_decode_dmaRh : decode common (.descriptor ⟨0b00000100#8, 0x10000002#32, .unused⟩) =
    .ok (.dmaRh 0x10000002#32) := rfl
theorem test_decode_dmaRw : decode common (.descriptor ⟨0b00000101#8, 0x10000000#32, .unused⟩) =
    .ok (.dmaRw 0x10000000#32) := rfl
theorem test_decode_dmaWh : decode common (.descriptor ⟨0b00000110#8, 0x10000000#32, .word 0xBEEF#32⟩) =
    .ok (.dmaWh 0x10000000#32 0xBEEF#16) := rfl
theorem test_decode_dmaWw : decode common (.descriptor ⟨0b00000111#8, 0x14000000#32, .word 0x54#32⟩) =
    .ok (.dmaWw 0x14000000#32 0x54#32) := rfl
theorem test_decode_advance : decode common (.descriptor ⟨0b00010000#8, 0#32, .cycles 400⟩) = .ok (.advance 400) := rfl
theorem test_decode_forceFinish : decode common (.descriptor ⟨0b00010001#8, 0#32, .unused⟩) = .ok .forceFinish := rfl
theorem test_decode_isBusy : decode common (.descriptor ⟨0b00010010#8, 0#32, .unused⟩) = .ok .isBusy := rfl
theorem test_decode_latchedValue : decode common (.descriptor ⟨0b00010011#8, 0#32, .unused⟩) = .ok .latchedValue := rfl
theorem test_decode_reset : decode common (.descriptor ⟨0b00010100#8, 0#32, .unused⟩) = .ok .reset := rfl
theorem test_decode_inbound : decode common (.descriptor ⟨0b00100000#8, 0#32, .bytes [0x68#8]⟩) =
    .ok (.inbound [0x68#8]) := rfl

theorem test_decode_txReady : decode common (.command 0b00010000000000000000000001010100#32) =
    .ok (.txReady 0x100000#24) := rfl
theorem test_decode_rxReady : decode common (.command 0b00000000000000000000000001010010#32) = .ok (.rxReady 0#24) := rfl
theorem test_decode_txData : decode common (.command 0b00000000000000000000000001110011#32) = .ok (.txData 0#24) := rfl
theorem test_decode_txDataLegacy : decode common (.command 0b00000000000000000000000001010011#32) =
    .ok (.txDataLegacy 0#24) := rfl
theorem test_decode_rxData : decode common (.command 0b00000000000000000000000001100111#32) = .ok (.rxData 0#24) := rfl
theorem test_decode_rxDataLegacy : decode common (.command 0b00000000000000000000000001000111#32) =
    .ok (.rxDataLegacy 0#24) := rfl
/-- V65: the word 0xDEADBE42. -/
theorem test_decode_rxBusy : decode common (.command 0b11011110101011011011111001000010#32) =
    .ok (.rxBusy 0xDEADBE#24) := rfl
theorem test_decode_config : decode common (.command 0b01000000000000000000000001000011#32) =
    .ok (.config 0x400000#24) := rfl
theorem test_decode_unrecognized : decode common (.command 0b00010000000000000000000011111111#32) =
    .ok (.unrecognized 0x100000FF#32) := rfl

/-- U2, R82: the CPU-class Half combinations spell no transaction. -/
theorem test_decode_refuses_cpu_half :
    decode common (.descriptor ⟨0b00000000#8, 0#32, .unused⟩) = .error (.noSuchOp 0x00#8) ∧
    decode common (.descriptor ⟨0b00000010#8, 0#32, .word 0#32⟩) = .error (.noSuchOp 0x02#8) := ⟨rfl, rfl⟩
/-- U3, R81: op[3] is 0. -/
theorem test_decode_refuses_other_ops :
    decode common (.descriptor ⟨0b00001101#8, 0#32, .unused⟩) = .error (.noSuchOp 0x0D#8) ∧
    decode common (.descriptor ⟨0b00010101#8, 0#32, .unused⟩) = .error (.noSuchOp 0x15#8) := ⟨rfl, rfl⟩
theorem test_decode_refuses_wrong_arg :
    decode common (.descriptor ⟨0b00010000#8, 0#32, .word 400#32⟩) = .error (.wrongArg 0x10#8) := rfl
theorem test_decode_refuses_wide_half :
    decode common (.descriptor ⟨0b00000110#8, 0#32, .word 0x10000#32⟩) = .error (.valueTooWide 0x10000#32) := rfl
theorem test_decode_refuses_long_payload :
    (match decode common (.descriptor ⟨0b00100000#8, 0#32, .bytes (List.replicate 513 0#8)⟩) with
      | .error e => e
      | .ok _ => .noSuchOp 0#8) = .payloadTooLong 513 := by decide +kernel

theorem test_table_words :
    decodeTableWord 8 0x03 = some (.cpuWw 0#32 0#32) ∧ decodeTableWord 8 0x14 = some .reset ∧
    decodeTableWord 8 0x43 = some (.config 0#24) ∧ decodeTableWord 32 0xFF = some (.unrecognized 0xFF#32) :=
  ⟨rfl, rfl, rfl, rfl⟩

/-! ## The address decoder (V6, V8, V10, V11, V13, V15) -/

theorem test_V6 : decodeAddress full 0x050005BF#32 = .mapped .ddMs 0x3F := by decide
theorem test_V8 : decodeAddress full 0x06000000#32 = .mapped .ddIpl 0 := by decide
theorem test_V10 : decodeAddress full 0x08000010#32 = .mapped .saveRam 0x10 := by decide
theorem test_V11 : decodeAddress { full with ramPresent := false } 0x08000010#32 = .mapped .saveFlash 0x10 := by decide
theorem test_V13 : decodeAddress common 0x13FEFFFC#32 = .mapped .rom 0x03FEFFFC := by decide
theorem test_V15 : decodeAddress common 0x1400000C#32 = .mapped .cfg 0xC := by decide

/-! ## One step each -/

/-- V42's last step: 300 cycles remain. -/
theorem test_cpuRw_V42 :
    (after (.cpuRw 0#32) { inFlight with latch := 0x12345678#32, pending := some 300 }).response =
      .valueAndCycles 0x12345678#32 300 ∧
    (after (.cpuRw 0#32) { inFlight with latch := 0x12345678#32, pending := some 300 }).busy = false := by decide
theorem test_cpuRw_V54 : (after (.cpuRw 0x1400000C#32) start).response = .valueAndCycles 0xC0DE0001#32 250 := by decide
/-- V48's first step. -/
theorem test_cpuWw_V48 :
    (after (.cpuWw 0x14000004#32 7#32) start).data0 = 7#32 ∧ (after (.cpuWw 0x14000004#32 7#32) start).latch = 7#32 ∧
    (after (.cpuWw 0x14000004#32 7#32) start).pending = some 400 ∧
    (after (.cpuWw 0x14000004#32 7#32) start).response = .cycles 0 := by decide
theorem test_cpuWw_V51 :
    (after (.cpuWw 0x10000001#32 5#32) start).fault = some (.misalignedAccess 0x10000001#32 .word) ∧
    (after (.cpuWw 0x10000001#32 5#32) start).busy = false ∧
    (after (.cpuWw 0x10000001#32 5#32) start).pending = none := by decide
theorem test_dmaRh_V21 :
    (after (.dmaRh 0x10000002#32) (image [(0, 0x12#8), (1, 0x34#8), (2, 0x56#8), (3, 0x78#8)])).response =
      .value (.half 0x5678#16) := by decide
/-- V36: alignment is checked before width. -/
theorem test_dmaRh_V36 :
    (after (.dmaRh 0x14000001#32) start).fault = some (.misalignedAccess 0x14000001#32 .half) := by decide
theorem test_dmaRw_V2 : (after (.dmaRw 0x23456788#32) start).response = .value (.word 0x67886788#32) := by decide
theorem test_dmaRw_V20 :
    (after (.dmaRw 0x10000000#32) (image [(0, 0x12#8), (1, 0x34#8), (2, 0x56#8), (3, 0x78#8)])).response =
      .value (.word 0x12345678#32) := by decide
theorem test_dmaWh_V31 :
    (after (.dmaWh 0x10000000#32 0xBEEF#16) { start with sdramWritable := true }).rom =
      [(0, 0xBE#8), (1, 0xEF#8)] := by decide
theorem test_dmaWh_S11 :
    (after (.dmaWh 0x08000010#32 0x1234#16) { start with config := full }).devLog =
      [⟨.saveRam, 0x08000010#32, 0x10, .half 0x1234#16⟩] := by decide
theorem test_dmaWw_V30 :
    (after (.dmaWw 0x10000000#32 0xAABBCCDD#32) { start with sdramWritable := true }).rom =
      [(0, 0xAA#8), (1, 0xBB#8), (2, 0xCC#8), (3, 0xDD#8)] := by decide
theorem test_dmaWw_V65 : (after (.dmaWw 0x14000000#32 0xDEADBE42#32) start).status = 0xDEADBE42#32 := by decide
theorem test_advance_V44 :
    (after (.advance 399) inFlight).pending = some 1 ∧ (after (.advance 399) inFlight).busy = true := by decide
theorem test_advance_V45 :
    (after (.advance 1) { inFlight with pending := some 1 }).pending = none ∧
    (after (.advance 1) { inFlight with pending := some 1 }).busy = false ∧
    (after (.advance 1) { inFlight with pending := some 1 }).latch = 5#32 := by decide
/-- V50's last step. -/
theorem test_forceFinish_V50 :
    (after .forceFinish { inFlight with pending := some 250 }).response = .cycles 250 ∧
    (after .forceFinish { inFlight with pending := some 250 }).busy = false := by decide
theorem test_forceFinish_V49 : (after .forceFinish start).response = .cycles 0 := by decide
theorem test_isBusy_V56 : (after .isBusy inFlight).response = .flag true := by decide
theorem test_latchedValue_V56 : (after .latchedValue inFlight).response = .latched 5#32 := by decide

/-- The start of V130. -/
def beforeReset : State :=
  { args inFlight 1#32 2#32 with
    pending := some 200, status := 0x10000073#32, sdramWritable := true, endpoint := some (.server [0x39#8])
    rom := [(0, 0xAA#8)] }

theorem test_reset_V130 :
    (after .reset beforeReset).busy = false ∧ (after .reset beforeReset).pending = none ∧
    (after .reset beforeReset).status = 0#32 ∧ (after .reset beforeReset).data1 = 0#32 ∧
    (after .reset beforeReset).sdramWritable = false ∧ (after .reset beforeReset).endpoint = none ∧
    (after .reset beforeReset).rom = [(0, 0xAA#8)] := by decide
theorem test_inbound_V118 :
    (after (.inbound [0x61#8, 0x62#8]) { start with
      endpoint := some (.client [0x68#8]), receiveReady := true, pendingResult := 5#32 }).pendingResult = 2#32 ∧
    (after (.inbound [0x61#8, 0x62#8]) { start with
      endpoint := some (.client [0x68#8]), receiveReady := true, pendingResult := 5#32 }).staging.take 3 =
      [0x61#8, 0x62#8, 0#8] := by decide +kernel
theorem test_inbound_V110 : exec (.inbound [0x78#8]) start = .refused .inboundNotEnabled := rfl
theorem test_txReady_V71 :
    (after (.txReady 0x100000#24) start).data0 = 1#32 ∧ (after (.txReady 0x100000#24) start).status = 0#32 := by decide
theorem test_rxReady_V73 :
    (after (.rxReady 0#24) { start with receiveReady := true, pendingResult := 5#32 }).data0 = 1#32 ∧
    (after (.rxReady 0#24) { start with receiveReady := true, pendingResult := 5#32 }).data1 = 5#32 ∧
    (after (.rxReady 0#24) { start with receiveReady := true, pendingResult := 5#32 }).receiveReady = false := by decide
theorem test_rxReady_V72 :
    (after (.rxReady 0#24) (args start 7#32 8#32)).data0 = 0#32 ∧
    (after (.rxReady 0#24) (args start 7#32 8#32)).data1 = 8#32 ∧
    (after (.rxReady 0#24) (args start 7#32 8#32)).status = 0x52#32 := by decide
/-- V80: an unknown header type is not fatal in the generic variant. -/
theorem test_txData_V80 :
    (after (.txData 0#24) (args (image [(0, 0x99#8), (1, 0x41#8), (2, 0x42#8)]) 3#32 0#32)).staging.take 3 =
      [0x99#8, 0x41#8, 0x42#8] ∧
    (after (.txData 0#24) (args (image [(0, 0x99#8), (1, 0x41#8), (2, 0x42#8)]) 3#32 0#32)).status = 0#32 := by
  decide +kernel
theorem test_txData_V77 :
    (after (.txData 0#24) (args start 513#32 0#32)).fault = some (.transferRange 513#32 0#32) ∧
    (after (.txData 0#24) (args start 513#32 0#32)).status = 0#32 := by decide
theorem test_txDataLegacy_V84 :
    (after (.txDataLegacy 0#24) (legacy 0x41#8 0x03#8 0x02#8)).outLog = [⟨.client [0x68#8], [0x68#8, 0x69#8]⟩] ∧
    (after (.txDataLegacy 0#24) (legacy 0x41#8 0x03#8 0x02#8)).staging.take 2 = [0x68#8, 0x69#8] ∧
    (after (.txDataLegacy 0#24) (legacy 0x41#8 0x03#8 0x02#8)).status = 0#32 := by decide +kernel
theorem test_txDataLegacy_V86 :
    (after (.txDataLegacy 0#24) (legacy 0x41#8 0x03#8 0x03#8)).fault = some (.oversizePayload 3#24 2#32) := by decide
theorem test_rxData_V91 :
    (after (.rxData 0#24) (args abc 3#32 0x20#32)).rom = [(0x20, 0x61#8), (0x21, 0x62#8), (0x22, 0x63#8)] ∧
    (after (.rxData 0#24) (args abc 3#32 0x20#32)).status = 0x67#32 := by decide +kernel
theorem test_rxData_V95 :
    (after (.rxData 0#24) (args abc 2#32 0xFFF#32)).fault = some (.transferRange 2#32 0xFFF#32) := by decide
theorem test_rxDataLegacy_V92 :
    (after (.rxDataLegacy 0#24) (args abc 3#32 0x10000020#32)).rom =
      [(0x20, 0x61#8), (0x21, 0x62#8), (0x22, 0x63#8)] := by decide +kernel
theorem test_rxDataLegacy_V93 :
    (after (.rxDataLegacy 0#24) (args abc 3#32 0x20#32)).fault = some (.transferRange 3#32 0x20#32) := by decide
theorem test_rxBusy_V97 :
    (after (.rxBusy 0#24) start).data0 = 0#32 ∧ (after (.rxBusy 0#24) start).status = 0x42#32 := by decide
theorem test_config_V100 :
    (after (.config 0#24) (args start 1#32 0xFFFFFFFF#32)).sdramWritable = true ∧
    (after (.config 0#24) (args start 1#32 0xFFFFFFFF#32)).status = 0x43#32 := by decide
theorem test_config_V101 : (after (.config 0#24) (args start 9#32 1#32)).sdramWritable = false := by decide
theorem test_unrecognized_S9 :
    (after (.unrecognized 0x100000FF#32) (args start 5#32 6#32)).status = 0#32 ∧
    (after (.unrecognized 0x100000FF#32) (args start 5#32 6#32)).data0 = 5#32 := by decide

/-! ## Witnesses: for each statement with hypotheses, a state and operands that meet them -/

theorem witness_DescriptorOpsDecodeByTable :
    (List.replicate 512 0#8 : List Byte).length ≤ 512 ∧
    (0x08#8 : Byte) ∉ [0x01#8, 0x03#8, 0x04#8, 0x05#8, 0x06#8, 0x07#8, 0x10#8, 0x11#8, 0x12#8, 0x13#8, 0x14#8, 0x20#8] ∧
    (0x15#8 : Byte) ∉ [0x01#8, 0x03#8, 0x04#8, 0x05#8, 0x06#8, 0x07#8, 0x10#8, 0x11#8, 0x12#8, 0x13#8, 0x14#8, 0x20#8] := by
  decide +kernel
theorem witness_CommandCodeSelectsOneCommand :
    common.commands.all.Nodup ∧ (0x55#32 : Word).setWidth 8 ∉ common.commands.all := by decide
theorem witness_DecodeEncodeRoundTrip :
    common.wf = true ∧ (Instr.inbound (List.replicate 512 0#8)).wf common = true ∧
    (Instr.unrecognized 0x55#32).wf common = true ∧ (Instr.dmaWh 0#32 0xFFFF#16).wf common = true := by decide +kernel
theorem witness_WindowsPartitionTheAddressSpace : WindowTable.standard.wf = true := by decide

/-- The low and the high end of every row of the default table, one clause of the statement after the other. -/
theorem witness_AddressDecodeFollowsTheWindowTable :
    full.windows.wf = true ∧
    (0x04FFFFFF#32).toNat < full.windows.ddC2s ∧
    (full.windows.ddC2s ≤ (0x05000000#32).toNat ∧ (0x050003FF#32).toNat < full.windows.ddDs) ∧
    (full.windows.ddDs ≤ (0x05000400#32).toNat ∧ (0x050004FF#32).toNat < full.windows.ddCtrl) ∧
    (full.windows.ddCtrl ≤ (0x05000500#32).toNat ∧ (0x0500057F#32).toNat < full.windows.ddMs) ∧
    (full.windows.ddMs ≤ (0x05000580#32).toNat ∧ (0x050005BF#32).toNat < full.windows.gap1) ∧
    (full.windows.gap1 ≤ (0x050005C0#32).toNat ∧ (0x05FFFFFF#32).toNat < full.windows.ddIpl) ∧
    (full.windows.ddIpl ≤ (0x06000000#32).toNat ∧ (0x063FFFFF#32).toNat < full.windows.gap2) ∧
    (full.windows.gap2 ≤ (0x06400000#32).toNat ∧ (0x07FFFFFF#32).toNat < full.windows.cartSave) ∧
    (full.windows.cartSave ≤ (0x08000000#32).toNat ∧ (0x0FFFFFFF#32).toNat < full.windows.cartRom) ∧
    (full.windows.cartRom ≤ (0x10000000#32).toNat ∧ (0x13FEFFFF#32).toNat < full.windows.viewer) ∧
    (full.windows.viewer ≤ (0x13FF0000#32).toNat ∧ (0x13FFFFFF#32).toNat < full.windows.cfgBase) ∧
    (full.windows.cfgBase ≤ (0x14000000#32).toNat ∧ (0x1400000F#32).toNat < full.windows.cfgBase + 16) ∧
    full.windows.cfgBase + 16 ≤ (0x14000010#32).toNat ∧ full.windows.cfgBase + 16 ≤ (0xFFFFFFFF#32).toNat := by decide

theorem witness_SramWinsOverFlash :
    full.ramPresent = true ∧ full.flashPresent = true ∧ full.windows.wf = true ∧
    full.windows.cartSave ≤ (0x08000000#32).toNat ∧ (0x0FFFFFFF#32).toNat < full.windows.cartRom := by decide

/-- The gap rows, and each gated window with its peripheral absent, at an end of each. -/
theorem witness_GapAndAbsentReadsGiveThePattern :
    start.config.windows.wf = true ∧
    (0x04FFFFFF#32).toNat < start.config.windows.ddC2s ∧
    (start.config.windows.gap1 ≤ (0x050005C0#32).toNat ∧ (0x050005C0#32).toNat < start.config.windows.ddIpl) ∧
    (start.config.windows.gap2 ≤ (0x07FFFFFF#32).toNat ∧ (0x07FFFFFF#32).toNat < start.config.windows.cartSave) ∧
    start.config.windows.cfgBase + 16 ≤ (0x14000010#32).toNat ∧
    (start.config.ddPresent = false ∧ start.config.windows.ddC2s ≤ (0x05000000#32).toNat ∧
      (0x050005BF#32).toNat < start.config.windows.gap1 ∧ start.config.windows.ddIpl ≤ (0x06000000#32).toNat ∧
      (0x063FFFFF#32).toNat < start.config.windows.gap2) ∧
    (start.config.ramPresent = false ∧ start.config.flashPresent = false ∧
      start.config.windows.cartSave ≤ (0x08000000#32).toNat ∧ (0x0FFFFFFF#32).toNat < start.config.windows.cartRom) ∧
    (({ start.config with romPresent := false } : Config).romPresent = false ∧
      start.config.windows.cartRom ≤ (0x10000000#32).toNat ∧ (0x13FEFFFF#32).toNat < start.config.windows.viewer) ∧
    (start.config.viewerPresent = false ∧ start.config.windows.viewer ≤ (0x13FF0000#32).toNat ∧
      (0x13FFFFFF#32).toNat < start.config.windows.cfgBase) := by decide

theorem witness_UnmappedReadsReturnThePattern :
    start.fault = none ∧ decodeAddress start.config 3#32 = .unmapped ∧ start.busy = false := by decide
theorem witness_UnmappedWritesAreDiscarded :
    start.fault = none ∧ decodeAddress start.config 0xFFFFFFFF#32 = .unmapped ∧ start.busy = false := by decide
theorem witness_MisalignedMappedAccessFaults :
    start.fault = none ∧ decodeAddress start.config 0x10000001#32 = .mapped .rom 1 ∧
    (0x10000001#32).toNat % 4 ≠ 0 ∧ (0x10000001#32).toNat % 2 ≠ 0 ∧ start.busy = false ∧
    inFlight.fault = none ∧ decodeAddress inFlight.config 0x10000001#32 = .mapped .rom 1 ∧ inFlight.busy = true := by decide
theorem witness_RegisterBlockTakesAlignedWordsOnly :
    start.fault = none ∧ start.config.windows.wf = true ∧
    start.config.windows.cfgBase ≤ (0x14000000#32).toNat ∧ (0x14000000#32).toNat % 2 = 0 ∧
    (0x1400000F#32).toNat < start.config.windows.cfgBase + 16 ∧ (0x1400000F#32).toNat % 4 ≠ 0 := by decide
theorem witness_RomReadsAreBigEndianInsideTheStore :
    start.fault = none ∧ decodeAddress start.config 0x10000FFC#32 = .mapped .rom 0xFFC ∧
    (0x10000FFC#32).toNat % 4 = 0 ∧ 0xFFC + 4 ≤ start.config.romSize ∧
    decodeAddress start.config 0x10000FFE#32 = .mapped .rom 0xFFE ∧
    (0x10000FFE#32).toNat % 2 = 0 ∧ 0xFFE + 2 ≤ start.config.romSize ∧
    decodeAddress start.config 0x10001000#32 = .mapped .rom 0x1000 ∧
    (0x10001000#32).toNat % 4 = 0 ∧ (0x10001000#32).toNat % 2 = 0 ∧
    start.config.romSize < 0x1000 + 4 ∧ start.config.romSize < 0x1000 + 2 := by decide
theorem witness_RomWritesStoreBigEndianBytes :
    ({ start with sdramWritable := true } : State).fault = none ∧
    Memory.wf ({ start with sdramWritable := true } : State).rom = true ∧
    ({ start with sdramWritable := true } : State).sdramWritable = true ∧
    decodeAddress common 0x10000FFC#32 = .mapped .rom 0xFFC ∧ (0x10000FFC#32).toNat % 4 = 0 ∧
    0xFFC + 4 ≤ common.romSize ∧
    decodeAddress common 0x10000FFE#32 = .mapped .rom 0xFFE ∧ (0x10000FFE#32).toNat % 2 = 0 ∧
    0xFFE + 2 ≤ common.romSize := by decide
theorem witness_RomWritesAreGatedAndBounded :
    start.fault = none ∧ decodeAddress start.config 0x10000000#32 = .mapped .rom 0 ∧ (0x10000000#32).toNat % 4 = 0 ∧
    start.sdramWritable = false ∧
    ({ start with sdramWritable := true } : State).fault = none ∧
    decodeAddress common 0x10001000#32 = .mapped .rom 0x1000 ∧ common.romSize < 0x1000 + 4 ∧
    (0x10001000#32).toNat % 2 = 0 ∧ common.romSize < 0x1000 + 2 := by decide
theorem witness_ExternalDevicesDrawAndLog :
    ({ start with config := full } : State).fault = none ∧
    decodeAddress full 0x05000000#32 = .mapped .ddC2s 0 ∧ Device.ddC2s ≠ .cfg ∧ Device.ddC2s ≠ .rom ∧
    (0x05000000#32).toNat % 4 = 0 ∧
    decodeAddress full 0x13FFFFFE#32 = .mapped .viewer 0xFFFE ∧ Device.viewer ≠ .cfg ∧ Device.viewer ≠ .rom ∧
    (0x13FFFFFE#32).toNat % 2 = 0 := by decide
theorem witness_RegisterBlockReads : start.fault = none ∧ start.config.windows.wf = true ∧ start.busy = false := by decide
theorem witness_RegisterBlockWrites :
    start.fault = none ∧ start.config.windows.wf = true ∧ start.busy = false := by decide

theorem witness_ReadWordGoesThroughTheGate :
    (inFlight.fault = none ∧ inFlight.busy = true ∧ inFlight.pending = some 400) ∧
    (({ inFlight with pending := none } : State).busy = true ∧ ({ inFlight with pending := none } : State).pending = none) ∧
    start.fault = none ∧ start.busy = false ∧
    (∃ v t, busRead .word 0x14000004#32 start = .ok (.word v, t)) ∧
    ∃ k, busRead .word 0x14000001#32 start = .error k :=
  ⟨by decide, by decide, rfl, rfl, ⟨_, _, rfl⟩, ⟨_, rfl⟩⟩
theorem witness_WriteWordGoesThroughTheGate :
    (inFlight.fault = none ∧ inFlight.busy = true) ∧ start.fault = none ∧ start.busy = false ∧
    (∃ t, busWrite 0x14000000#32 (.word 0x54#32) start = .ok t) ∧
    ∃ k, busWrite 0x14000000#32 (.word 0x53#32) start = .error k :=
  ⟨by decide, rfl, rfl, ⟨_, rfl⟩, ⟨_, rfl⟩⟩
theorem witness_WriteThenReadReturnsTheLatch :
    start.busy = false ∧ 399 < start.config.tWrite ∧
    exec (.cpuWw 0#32 5#32) start = .next (after (.cpuWw 0#32 5#32) start) ∧
    (after (.cpuWw 0#32 5#32) start).fault = none ∧
    exec (.advance 399) (after (.cpuWw 0#32 5#32) start) =
      .next (after (.advance 399) (after (.cpuWw 0#32 5#32) start)) :=
  ⟨rfl, by decide, rfl, rfl, rfl⟩
/-- V48 and S4, with the latest second write that is still dropped. -/
theorem witness_SecondWriteWhileBusyIsDropped :
    (inFlight.fault = none ∧ inFlight.busy = true) ∧
    start.busy = false ∧ exec (.cpuWw 0x14000004#32 7#32) start = .next (after (.cpuWw 0x14000004#32 7#32) start) ∧
    (after (.cpuWw 0x14000004#32 7#32) start).fault = none ∧
    10 < start.config.tWrite ∧ 399 < start.config.tWrite := ⟨by decide, rfl, rfl, rfl, by decide, by decide⟩
theorem witness_AdvanceCountsDown :
    start.fault = none ∧ start.pending = none ∧ inFlight.fault = none ∧ inFlight.pending = some 400 ∧ 400 ≤ 400 ∧
    399 < 400 := by decide
theorem witness_AdvancesAddUp :
    exec (.advance 100) inFlight = .next (after (.advance 100) inFlight) := rfl
theorem witness_HostOperationsOnTheController :
    inFlight.fault = none ∧ inFlight.pending = some 400 ∧ start.fault = none ∧ start.pending = none := by decide
theorem witness_DmaBypassesTheGate :
    (∃ a v h, Instr.dmaWw 0x14000004#32 3#32 = .dmaRh a ∨ Instr.dmaWw 0x14000004#32 3#32 = .dmaRw a ∨
      Instr.dmaWw 0x14000004#32 3#32 = .dmaWh a h ∨ Instr.dmaWw 0x14000004#32 3#32 = .dmaWw a v) ∧
    exec (.dmaWw 0x14000004#32 3#32) inFlight = .next (after (.dmaWw 0x14000004#32 3#32) inFlight) :=
  ⟨⟨0x14000004#32, 3#32, 0#16, .inr (.inr (.inr rfl))⟩, rfl⟩

/-- The statements whose only hypothesis is that no fault has been raised: FlagQueriesAnswer, ReceiveReadyQueryAnswers,
UnrecognizedClearsStatusOnly, ResetRestoresEveryField. -/
theorem witness_running : start.fault = none := rfl
theorem witness_EventIsDeliveredOnce :
    start.receiveBusy = false ∧ exec (.rxReady 0#24) start = .next (after (.rxReady 0#24) start) ∧
    (after (.rxReady 0#24) start).fault = none := ⟨rfl, rfl, rfl⟩

/-- Each cause of R243, for the commands it stops. -/
theorem witness_TransferRangeFaults :
    start.fault = none ∧
    ({ start with config := { common with romPresent := false } } : State).config.romPresent = false ∧
    512 < (args start 513#32 0#32).data0.toNat ∧
    start.config.romSize < (args start 2#32 0xFFF#32).data1.toNat + (args start 2#32 0xFFF#32).data0.toNat ∧
    (args start 2#32 0x0FFFFFFF#32).data1.toNat < start.config.windows.cartRom ∧
    start.config.romSize < (args start 1#32 0x10000FF8#32).data1.toNat - start.config.windows.cartRom + 8 +
      (args start 1#32 0x10000FF8#32).data0.toNat ∧
    start.config.romSize < (args start 1#32 0x10001000#32).data1.toNat - start.config.windows.cartRom +
      (args start 1#32 0x10001000#32).data0.toNat := by decide
/-- V76 and V78. -/
theorem witness_GenericTransmitWithoutRequest :
    ((args start 0#32 0#32).fault = none ∧ (args start 0#32 0#32).config.romPresent = true ∧
      (args start 0#32 0#32).data0.toNat = 0 ∧ (0#32).toNat + (0#32).toNat ≤ start.config.romSize) ∧
    ((args start 512#32 0xE00#32).fault = none ∧ (args start 512#32 0xE00#32).config.romPresent = true ∧
      (512#32).toNat ≤ 512 ∧
      (0xE00#32).toNat + (512#32).toNat ≤ start.config.romSize ∧
      Memory.read (args start 512#32 0xE00#32).rom 0xE00 ∉ start.config.headers.all) := by decide

/-- A start-server request, "9000" (V82). -/
def serveRequest : State :=
  args (image [(0, 0x02#8), (1, 0x39#8), (2, 0x30#8), (3, 0x30#8), (4, 0x30#8)]) 5#32 0#32

theorem witness_GenericTransmitMakesTheRequest :
    serveRequest.fault = none ∧ serveRequest.data0.toNat = 4 + 1 ∧ serveRequest.config.romPresent = true ∧ 4 + 1 ≤ 512 ∧
    serveRequest.data1.toNat + (4 + 1) ≤ serveRequest.config.romSize ∧
    serveRequest.config.headers.all.Nodup ∧
    Memory.read serveRequest.rom serveRequest.data1.toNat = serveRequest.config.headers.server := by decide

/-- The other three types as the first byte of a one-byte transmit, by their default codes (R87). -/
theorem witness_GenericTransmitMakesTheRequest_types :
    (args start 1#32 0#32).data0.toNat = 0 + 1 ∧ common.headers.all.Nodup ∧
    Memory.read (image [(0, 0x01#8)]).rom 0 = common.headers.connect ∧
    Memory.read (image [(0, 0x03#8)]).rom 0 = common.headers.send ∧
    Memory.read (image [(0, 0x04#8)]).rom 0 = common.headers.text := by decide

/-- What the statements about the legacy transmit suppose of the state: it runs, and its arguments are in range. -/
abbrev LegacyRange (s : State) : Prop :=
  s.fault = none ∧ s.config.romPresent = true ∧ s.config.windows.cartRom ≤ s.data1.toNat ∧ s.data0.toNat ≤ 512 ∧
  s.data1.toNat - s.config.windows.cartRom + 8 + s.data0.toNat ≤ s.config.romSize

/-- V85, V86, V87: a bad signature; a good one with size 3 > 2; a good one with size 2 and type 9. -/
theorem witness_LegacyTransmitChecksInOrder :
    (LegacyRange (legacy 0x00#8 0x03#8 0x02#8) ∧
      Memory.word (legacy 0x00#8 0x03#8 0x02#8).rom 0x100 ≠ common.legacySig) ∧
    (LegacyRange (legacy 0x41#8 0x03#8 0x03#8) ∧
      Memory.word (legacy 0x41#8 0x03#8 0x03#8).rom 0x100 = common.legacySig ∧
      (2#32).toNat < (headerSize (Memory.word (legacy 0x41#8 0x03#8 0x03#8).rom 0x104)).toNat) ∧
    (LegacyRange (legacy 0x41#8 0x09#8 0x02#8) ∧
      Memory.word (legacy 0x41#8 0x09#8 0x02#8).rom 0x100 = common.legacySig ∧
      (headerSize (Memory.word (legacy 0x41#8 0x09#8 0x02#8).rom 0x104)).toNat ≤ (2#32).toNat ∧
      Memory.read (legacy 0x41#8 0x09#8 0x02#8).rom 0x104 ∉ common.headers.all) := by decide
/-- V84, and L1 with each other type. -/
theorem witness_LegacyTransmitMakesTheRequest :
    LegacyRange (legacy 0x41#8 0x03#8 0x02#8) ∧
    Memory.word (legacy 0x41#8 0x03#8 0x02#8).rom 0x100 = common.legacySig ∧
    (headerSize (Memory.word (legacy 0x41#8 0x03#8 0x02#8).rom 0x104)).toNat ≤ (2#32).toNat ∧
    common.headers.all.Nodup ∧
    Memory.read (legacy 0x41#8 0x03#8 0x02#8).rom 0x104 = common.headers.send ∧
    Memory.read (legacy 0x41#8 0x01#8 0x02#8).rom 0x104 = common.headers.connect ∧
    Memory.read (legacy 0x41#8 0x02#8 0x02#8).rom 0x104 = common.headers.server ∧
    Memory.read (legacy 0x41#8 0x04#8 0x02#8).rom 0x104 = common.headers.text := by decide
/-- V94 and V92. -/
theorem witness_ReceiveCopiesTheStagingBuffer :
    abc.fault = none ∧ Memory.wf abc.rom = true ∧ abc.staging.length = 512 ∧ abc.config.romPresent = true ∧
    ((1#32).toNat ≤ 512 ∧ (0xFFF#32).toNat + (1#32).toNat ≤ abc.config.romSize) ∧
    abc.config.windows.cartRom ≤ (0x10000020#32).toNat ∧
    (0x10000020#32).toNat - abc.config.windows.cartRom + (3#32).toNat ≤ abc.config.romSize := by decide +kernel
theorem witness_ConfigurationUpdate :
    start.fault = none ∧ (args start 1#32 1#32).data0 = start.config.optSdramWritable ∧
    (args start 9#32 1#32).data0 ≠ start.config.optSdramWritable := by decide
/-- V113, V112 and V114: no ':', a ':' inside, a ':' first. -/
theorem witness_ConnectRequest :
    (∀ b ∈ ([0x65#8, 0x78#8] : List Byte), b ≠ 0x3A#8) ∧
    ([0x65#8, 0x78#8] : List Byte) = [0x65#8, 0x78#8] ∧
    ([0x65#8, 0x78#8, 0x3A#8, 0x38#8] : List Byte) = [0x65#8, 0x78#8] ++ 0x3A#8 :: [0x38#8] ∧
    ([0x3A#8, 0x38#8, 0x30#8] : List Byte) = [] ++ 0x3A#8 :: [0x38#8, 0x30#8] := by decide
theorem witness_InboundPostsTheEvent :
    start.fault = none ∧ start.endpoint = none ∧ ([0x78#8] : List Byte).length ≤ 512 ∧
    ({ start with endpoint := some (.server []) } : State).endpoint = some (.server []) ∧
    (List.replicate 512 0#8 : List Byte).length ≤ 512 ∧ 512 < (List.replicate 513 0#8 : List Byte).length := by
  decide +kernel
theorem witness_FailedRequestLeavesNoEndpoint :
    serveRequest.fault = none ∧ 1 ≤ serveRequest.data0.toNat ∧ serveRequest.data0.toNat ≤ 512 ∧
    serveRequest.data1.toNat + serveRequest.data0.toNat ≤ serveRequest.config.romSize ∧
    serveRequest.config.romPresent = true ∧
    (Memory.read serveRequest.rom serveRequest.data1.toNat = serveRequest.config.headers.connect ∨
      Memory.read serveRequest.rom serveRequest.data1.toNat = serveRequest.config.headers.server) := by decide
theorem witness_ServerSendConnectSequence :
    (∀ b ∈ ([0x31#8, 0x2E#8] : List Byte), b ≠ 0x3A#8) ∧ ([0x31#8, 0x2E#8] : List Byte).length ≤ 512 := by decide
theorem witness_FaultsArePrecise :
    exec (.txData 0#24) (args start 513#32 0#32) = .next (after (.txData 0#24) (args start 513#32 0#32)) ∧
    (after (.txData 0#24) (args start 513#32 0#32)).fault ≠ none := ⟨rfl, by decide⟩
theorem witness_NoStepAfterAFault :
    (start.raise (.badSignature 0#32)).fault = some (.badSignature 0#32) := rfl
/-- V85, by the command itself and by a raw write of its word. -/
theorem witness_ProtocolFatalOnlyInTheLegacyTransmit :
    exec (.txDataLegacy 0#24) (legacy 0x00#8 0x03#8 0x02#8) =
      .next (after (.txDataLegacy 0#24) (legacy 0x00#8 0x03#8 0x02#8)) ∧
    (after (.txDataLegacy 0#24) (legacy 0x00#8 0x03#8 0x02#8)).fault = some (.badSignature 0x10000100#32) ∧
    exec (.dmaWw 0x14000000#32 0x53#32) (legacy 0x00#8 0x03#8 0x02#8) =
      .next (after (.dmaWw 0x14000000#32 0x53#32) (legacy 0x00#8 0x03#8 0x02#8)) ∧
    (after (.dmaWw 0x14000000#32 0x53#32) (legacy 0x00#8 0x03#8 0x02#8)).fault = some (.badSignature 0x10000100#32) ∧
    (FaultKind.badSignature 0x10000100#32).code ≤ 3 ∧
    (legacy 0x00#8 0x03#8 0x02#8).WritesCommand (.dmaWw 0x14000000#32 0x53#32) 0x53#32 :=
  ⟨rfl, by decide, rfl, by decide, by decide, 0x14000000#32, 0, rfl, rfl, rfl, .inr rfl⟩
theorem witness_GuestTransactionsAlwaysStep : start.fault = none ∧ ∀ p, Instr.reset ≠ .inbound p :=
  ⟨rfl, fun _ h => nomatch h⟩

/-- One record presented: a transmit-ready command; and one that spells no transaction. -/
def presented : State := { start with inputs := [.command 0x54#32] }
def spellsNothing : State := { start with inputs := [.descriptor ⟨0x00#8, 0#32, .unused⟩] }

theorem witness_StepRunsTheDecodedTransaction :
    presented.fault = none ∧ presented.inputs = .command 0x54#32 :: [] ∧
    decode presented.config (.command 0x54#32) = .ok (.txReady 0#24) ∧
    spellsNothing.fault = none ∧ spellsNothing.inputs = .descriptor ⟨0x00#8, 0#32, .unused⟩ :: [] ∧
    decode spellsNothing.config (.descriptor ⟨0x00#8, 0#32, .unused⟩) = .error (.noSuchOp 0x00#8) ∧
    start.fault = none ∧ start.inputs = [] := ⟨rfl, rfl, rfl, rfl, rfl, rfl, rfl, rfl⟩
/-- A state with a write in flight, a received event and a byte in the ROM store meets the invariant, and steps. -/
def busyReceiver : State :=
  { inFlight with
    receiveReady := true, pendingResult := 512#32, rom := [(0xFFF, 1#8)], inputs := [.command 0x52#32] }
theorem witness_EveryStepKeepsTheInvariant :
    busyReceiver.Inv ∧ step busyReceiver = .next (stateOf (step busyReceiver)) :=
  ⟨{ config_wf := by decide
     busy_iff := by decide
     pending_range := fun n h => by cases h; decide
     transmit_ready := rfl
     receive_idle := rfl
     staging_size := List.length_replicate
     cache_empty := fun h => by cases h
     cache_bound := by decide
     rom_wf := by decide
     rom_below := by decide }, rfl⟩
theorem witness_BusyIffPendingIsKept :
    (inFlight.busy = true ↔ inFlight.pending ≠ none) ∧ exec .isBusy inFlight = .next (after .isBusy inFlight) :=
  ⟨by decide, rfl⟩
theorem witness_BracketingFlagsAreNeverSeen :
    start.fault = none ∧ start.transmitReady = true ∧ start.receiveBusy = false ∧
    exec (.rxData 0#24) start = .next (after (.rxData 0#24) start) := ⟨rfl, rfl, rfl, rfl⟩
theorem witness_LogsOnlyGrow :
    Instr.txDataLegacy 0#24 ≠ .reset ∧ exec (.txDataLegacy 0#24) (legacy 0x41#8 0x03#8 0x02#8) =
      .next (after (.txDataLegacy 0#24) (legacy 0x41#8 0x03#8 0x02#8)) := ⟨by decide, rfl⟩
theorem witness_ConfigurationIsFixed : exec .reset start = .next (after .reset start) := rfl
theorem witness_OnlyTheConfigurationUpdateChangesTheGate :
    exec (.config 0#24) (args start 1#32 1#32) = .next (after (.config 0#24) (args start 1#32 1#32)) ∧
    (after (.config 0#24) (args start 1#32 1#32)).sdramWritable ≠ (args start 1#32 1#32).sdramWritable ∧
    (after (.cpuWw 0x14000000#32 0x43#32) (args start 1#32 1#32)).sdramWritable ≠
      (args start 1#32 1#32).sdramWritable ∧
    (args start 1#32 1#32).WritesCommand (.cpuWw 0x14000000#32 0x43#32) 0x43#32 :=
  ⟨rfl, by decide, by decide, 0x14000000#32, 0, rfl, rfl, rfl, .inl ⟨rfl, rfl⟩⟩
/-- V66. -/
theorem witness_CpuBusyBitIsOnlyEverWritten :
    exec (.dmaWw 0x14000000#32 0x40000043#32) start = .next (after (.dmaWw 0x14000000#32 0x40000043#32) start) ∧
    (after (.dmaWw 0x14000000#32 0x40000043#32) start).status.getLsbD 30 = true ∧
    start.WritesCommand (.dmaWw 0x14000000#32 0x40000043#32) 0x40000043#32 :=
  ⟨rfl, by decide, 0x14000000#32, 0, rfl, rfl, rfl, .inr rfl⟩
theorem witness_SetArgumentScriptsRun :
    start.fault = none ∧ start.busy = false ∧ start.config.windows.wf = true := by decide

/-- S6: the transmit of four bytes at 0x100 (a send), and the receive of the four at the same offset. -/
def sendRequest : State :=
  args (image [(0x100, 0x03#8), (0x101, 0x68#8), (0x102, 0x69#8), (0x103, 0x21#8)]) 4#32 0x100#32
def sent : State := after (.txData 0#24) sendRequest

theorem witness_TransmitReceiveRoundTrip :
    exec (.txData 0#24) sendRequest = .next sent ∧ sent.fault = none ∧
    Memory.read sendRequest.rom sendRequest.data1.toNat ≠ sendRequest.config.headers.connect ∧
    Memory.wf sent.rom = true ∧ exec (.rxData 0#24) sent = .next (after (.rxData 0#24) sent) ∧
    (after (.rxData 0#24) sent).fault = none := ⟨rfl, by decide, by decide, by decide, rfl, by decide⟩

end Sys2Proof.Tests
end

section
/-!
PROOFS, the scope family: the guest side always has a step (O49), and a step is the decoded transaction's (O50).
-/

namespace Sys2Proof.Machine

/-- A transaction from a running state has a next state: a fault is recorded in it, not answered in its place (R12, R241). -/
theorem transact_steps (s : State) (a : Action) (h : s.fault = none) : ∃ t, transact s a = .next t := by
  cases ha : a s with
  | ok t => exact ⟨t, transact_ok s t a h ha⟩
  | error k => exact ⟨s.raise k, transact_error s k a h ha⟩

/-- Settles O49: every instruction but INBOUND is one transaction, and a transaction always has a next state. -/
theorem guestTransactionsAlwaysStep : Obligations.GuestTransactionsAlwaysStep := by
  intro i s hrun hguest
  rw [exec_eq_transact i s hguest]
  exact transact_steps s (actionOf i) hrun

/-! What a step takes, by what is presented and what the decoder reads from it (R22). -/

theorem takeInput_of_nil (s : State) (h : s.inputs = []) : takeInput s = .nothing := by
  simp only [takeInput, h]

theorem takeInput_of_decode_ok (s : State) (p : Presented) (rest : List Presented) (i : Instr)
    (h : s.inputs = p :: rest) (hd : decode s.config p = .ok i) :
    takeInput s = .transaction i { s with inputs := rest } := by
  simp only [takeInput, h, hd]

theorem takeInput_of_decode_error (s : State) (p : Presented) (rest : List Presented) (e : DecodeError)
    (h : s.inputs = p :: rest) (hd : decode s.config p = .error e) : takeInput s = .refused e := by
  simp only [takeInput, h, hd]

/-! A step from a running state, by what it takes. -/

theorem step_of_takeInput_nothing (s : State) (hrun : s.fault = none) (h : takeInput s = .nothing) :
    step s = .next s := by
  simp only [step, whenRunning_running, hrun, h]

theorem step_of_takeInput_refused (s : State) (e : DecodeError) (hrun : s.fault = none) (h : takeInput s = .refused e) :
    step s = .refused (.noTransaction e) := by
  simp only [step, whenRunning_running, hrun, h]

theorem step_of_takeInput_transaction (s t : State) (i : Instr) (hrun : s.fault = none)
    (h : takeInput s = .transaction i t) : step s = exec i t := by
  simp only [step, whenRunning_running, hrun, h]

/-- Settles O50: the three things a step can take, each with its outcome. -/
theorem stepRunsTheDecodedTransaction : Obligations.StepRunsTheDecodedTransaction := by
  intro s hrun
  refine ⟨fun p rest i hp hd => ?_, fun p rest e hp hd => ?_, fun hp => ?_⟩
  · exact step_of_takeInput_transaction s _ i hrun (takeInput_of_decode_ok s p rest i hp hd)
  · exact step_of_takeInput_refused s e hrun (takeInput_of_decode_error s p rest e hp hd)
  · exact step_of_takeInput_nothing s hrun (takeInput_of_nil s hp)

end Sys2Proof.Machine
end

section
/-!
PROOFS, the state family: what every instruction and every step keeps (O52, O53, O55 to O58). `Effect` says once what an
instruction that goes through can do to the state, `GateMove` what it can do to the controller.
-/

namespace Sys2Proof.Machine

/-! The controller: the four ways its `busy` and `pending` move (R25, R142, R145, R146). -/

/-- What one transaction can do to the controller. -/
inductive GateMove (s t : State) : Prop where
  /-- Neither field changes (R151). -/
  | same (gate : SameGate s t)
  /-- The in-flight period ends, or there is none (R145, R146, R260). -/
  | released (busy : t.busy = false) (pending : t.pending = none)
  /-- A CPU-class write starts an in-flight period (R142). -/
  | begun (busy : t.busy = true) (pending : t.pending = some s.config.tWrite)
  /-- Time passes, and the in-flight period goes on (R145). -/
  | counted (m n : Nat) (before : s.pending = some m) (left : n < m) (busy : t.busy = s.busy)
      (pending : t.pending = some (m - n))

/-- Each move writes `busy` and `pending` together, so R25's equivalence is kept. -/
theorem GateMove.busy_iff {s t : State} (g : GateMove s t) (hs : s.busy = true ↔ s.pending ≠ none) :
    t.busy = true ↔ t.pending ≠ none := by
  cases g with
  | same gate => rwa [gate.busy, gate.pending]
  | released busy pending => simp [busy, pending]
  | begun busy pending => simp [busy, pending]
  | counted m n before _ busy pending => simpa [busy, pending, before] using hs

/-- A period starts at T_WRITE cycles and only counts down, never to 0 (R24). -/
theorem GateMove.pending_range {s t : State} (g : GateMove s t) (hc : 0 < s.config.tWrite)
    (hs : ∀ n, s.pending = some n → 0 < n ∧ n ≤ s.config.tWrite) :
    ∀ n, t.pending = some n → 0 < n ∧ n ≤ s.config.tWrite := by
  intro k hk
  cases g with
  | same gate => exact hs k (gate.pending ▸ hk)
  | released _ pending => rw [pending] at hk; cases hk
  | begun _ pending => rw [pending] at hk; cases hk; exact ⟨hc, le_refl _⟩
  | counted m n before left _ pending =>
    rw [pending] at hk
    cases hk
    have := (hs m before).2
    omega

/-- Draining writes the controller only. -/
theorem drain_withGate (s : State) : ∃ b p, drain s = withGate b s.latch p s ∧ GateMove s (withGate b s.latch p s) := by
  rcases drain_cases s with ⟨_, e, _⟩ | ⟨m, _, e, _⟩
  · exact ⟨s.busy, s.pending, e, .same (SameGate.refl s)⟩
  · exact ⟨false, none, e, .released rfl rfl⟩

/-- The passage of time writes the controller only. -/
theorem elapse_withGate (n : Nat) (s : State) :
    ∃ b p, elapse n s = withGate b s.latch p s ∧ GateMove s (withGate b s.latch p s) := by
  rcases elapse_cases n s with ⟨_, e⟩ | ⟨m, _, _, e⟩ | ⟨m, hm, hn, e⟩
  · exact ⟨s.busy, s.pending, e, .same (SameGate.refl s)⟩
  · exact ⟨false, none, e, .released rfl rfl⟩
  · exact ⟨s.busy, some (m - n), e, .counted m n hm hn rfl rfl⟩

/-! What an instruction that goes through does to the state, but for its response. -/

/-- The effects of an instruction that goes through. -/
inductive Effect (i : Instr) (s : State) : State → Prop where
  /-- A query, a read that draws nothing, or a write dropped while busy (R142, R144, R151). -/
  | quiet : Effect i s s
  /-- A read that draws (R60, R67). -/
  | draws : Effect i s { s with draws := s.draws + 1 }
  /-- A forced finish or the passage of time (R145, R146). -/
  | moves (b : Bool) (p : Option Nat) (gate : GateMove s (withGate b s.latch p s)) :
      Effect i s (withGate b s.latch p s)
  /-- System init (R260). -/
  | resets (instr : i = .reset) : Effect i s (systemInit s)
  /-- An inbound payload (R216). -/
  | posts (p : List Byte) : Effect i s (postEvent p s)
  /-- A raw write (R123, R124). -/
  | rawWrite (a : Word) (v : BusValue) (u : State) (instr : ∀ x, v = .word x → i = .dmaWw a x)
      (write : busWrite a v s = .ok u) : Effect i s u
  /-- An accepted CPU-class write (R142). -/
  | cpuWrite (a x : Word) (u : State) (instr : i = .cpuWw a x) (idle : s.busy = false)
      (write : busWrite a (.word x) (beginWrite x s) = .ok u) : Effect i s u
  /-- A command presented by itself (R162; entry 2). -/
  | runs (v : Word) (c : Command) (u : State) (word : encode s.config i = .command v)
      (config : c = .config → ∃ hi, i = .config hi) (run : writeCommand v (runCommand c) s = .ok u) : Effect i s u

/-- A bus read is quiet, or draws. -/
theorem Effect.of_busRead {i : Instr} {w : Width} {a : Word} {s t : State} {v : BusValue}
    (h : busRead w a s = .ok (v, t)) : Effect i s t := by
  obtain ⟨_, rfl | rfl⟩ := busRead_ok w a s t v h
  · exact .quiet
  · exact .draws

theorem Effect.of_drain (i : Instr) (s : State) : Effect i s (drain s) := by
  obtain ⟨b, p, e, g⟩ := drain_withGate s
  exact e ▸ .moves b p g

theorem Effect.of_elapse (i : Instr) (n : Nat) (s : State) : Effect i s (elapse n s) := by
  obtain ⟨b, p, e, g⟩ := elapse_withGate n s
  exact e ▸ .moves b p g

/-- Every instruction that goes through has one of the effects, and then returns its response. -/
theorem action_effect (i : Instr) (s t : State) (h : actionOf i s = .ok t) :
    ∃ u r, Effect i s u ∧ t = u.respond r := by
  have command : ∀ v c, encode s.config i = .command v → (c = .config → ∃ hi, i = .config hi) →
      issue v (runCommand c) s = .ok t → ∃ u r, Effect i s u ∧ t = u.respond r := by
    intro v c hv hc hr
    obtain ⟨u, hu, e⟩ := issue_ok v _ s t hr
    exact ⟨u, _, .runs v c u hv hc hu, e⟩
  cases i with
  | cpuRw a =>
    rcases readWord_ok a s t h with ⟨_, e⟩ | ⟨_, v, u, hr, e⟩
    · exact ⟨_, _, .of_drain _ s, e⟩
    · exact ⟨u, _, .of_busRead hr, e⟩
  | cpuWw a v =>
    rcases writeWord_ok a v s t h with ⟨_, e⟩ | ⟨hb, u, hw, e⟩
    · exact ⟨s, _, .quiet, e⟩
    · exact ⟨u, _, .cpuWrite a v u rfl hb hw, e⟩
  | dmaRh a =>
    obtain ⟨v, u, hr, e⟩ := dmaRead_ok _ a s t h
    exact ⟨u, _, .of_busRead hr, e⟩
  | dmaRw a =>
    obtain ⟨v, u, hr, e⟩ := dmaRead_ok _ a s t h
    exact ⟨u, _, .of_busRead hr, e⟩
  | dmaWh a v =>
    obtain ⟨u, hw, e⟩ := dmaWrite_ok a _ s t h
    exact ⟨u, _, .rawWrite a (.half v) u nofun hw, e⟩
  | dmaWw a v =>
    obtain ⟨u, hw, e⟩ := dmaWrite_ok a _ s t h
    exact ⟨u, _, .rawWrite a (.word v) u (fun _ hx => by cases hx; rfl) hw, e⟩
  | advance n => cases h; exact ⟨_, _, .of_elapse _ n s, rfl⟩
  | forceFinish => cases h; exact ⟨_, _, .of_drain _ s, rfl⟩
  | isBusy => cases h; exact ⟨s, _, .quiet, rfl⟩
  | latchedValue => cases h; exact ⟨s, _, .quiet, rfl⟩
  | reset => cases h; exact ⟨systemInit s, .nothing, .resets rfl, rfl⟩
  | inbound p => cases h; exact ⟨_, _, .posts p, rfl⟩
  | txReady hi => exact command _ .txReady rfl nofun h
  | rxReady hi => exact command _ .rxReady rfl nofun h
  | txData hi => exact command _ .txData rfl nofun h
  | txDataLegacy hi => exact command _ .txDataLegacy rfl nofun h
  | rxData hi => exact command _ .rxData rfl nofun h
  | rxDataLegacy hi => exact command _ .rxDataLegacy rfl nofun h
  | rxBusy hi => exact command _ .rxBusy rfl nofun h
  | config hi => exact command _ .config rfl (fun _ => ⟨hi, rfl⟩) h
  | unrecognized v => exact command v .unrecognized rfl nofun h

/-- An instruction that answers a next state has one of the effects and returns its response, or records its fault. -/
theorem exec_effect (i : Instr) (s t : State) (h : exec i s = .next t) :
    (∃ u r, Effect i s u ∧ t = u.respond r) ∨ ∃ k, t = s.raise k := by
  obtain ⟨_, _, ha | ⟨k, _, e⟩⟩ := exec_next i s t h
  · exact .inl (action_effect i s t ha)
  · exact .inr ⟨k, e⟩

/-! What the effects do to the controller, to `transmitReady`, to the write gate and to status bit 30. -/

theorem Effect.gateMove {i : Instr} {s u : State} (h : Effect i s u) : GateMove s u := by
  cases h with
  | quiet => exact .same (SameGate.refl s)
  | draws => exact .same (draw_kept s).2
  | moves _ _ gate => exact gate
  | resets => exact .released rfl rfl
  | posts => exact .same ⟨rfl, rfl, rfl⟩
  | rawWrite a v _ _ write =>
    obtain ⟨_, gate, _, _⟩ := busWrite_kept a v s u write
    exact .same gate
  | cpuWrite a x _ _ _ write =>
    obtain ⟨_, gate, _, _⟩ := busWrite_kept a _ (beginWrite x s) u write
    exact .begun gate.busy gate.pending
  | runs v c _ _ _ run =>
    obtain ⟨_, gate, _, _, _⟩ := writeCommand_kept v c s u run
    exact .same gate

/-- R192: no instruction that goes through leaves `transmitReady` false where it was true. -/
theorem Effect.transmitReady {i : Instr} {s u : State} (h : Effect i s u) (hs : s.transmitReady = true) :
    u.transmitReady = true := by
  cases h with
  | quiet | draws | moves | posts => exact hs
  | resets => rfl
  | rawWrite a v _ _ write =>
    obtain ⟨_, _, ready, _⟩ := busWrite_kept a v s u write
    exact ready hs
  | cpuWrite a x _ _ _ write =>
    obtain ⟨_, _, ready, _⟩ := busWrite_kept a _ (beginWrite x s) u write
    exact ready hs
  | runs v c _ _ _ run =>
    obtain ⟨_, _, _, ready, _⟩ := writeCommand_kept v c s u run
    exact ready hs

/-- R34, R190: what leaves another `sdramWritable`. -/
theorem Effect.sdramWritable {i : Instr} {s u : State} (h : Effect i s u) :
    u.sdramWritable = s.sdramWritable ∨ i = .reset ∨ (∃ hi, i = .config hi) ∨
      ∃ v, s.WritesCommand i v ∧ commandOf s.config.commands (codeOf v) = .config := by
  cases h with
  | quiet | draws | moves | posts => exact .inl rfl
  | resets instr => exact .inr (.inl instr)
  | rawWrite a v _ instr write =>
    obtain ⟨_, _, _, same | ⟨off, x, hd, ho, ha, hv, hc⟩⟩ := busWrite_kept a v s u write
    · exact .inl same
    · exact .inr (.inr (.inr ⟨x, ⟨a, off, hd, ho, ha, .inr (instr x hv)⟩, hc⟩))
  | cpuWrite a x _ instr idle write =>
    obtain ⟨_, _, _, same | ⟨off, y, hd, ho, ha, hv, hc⟩⟩ := busWrite_kept a _ (beginWrite x s) u write
    · exact .inl same
    · cases hv
      exact .inr (.inr (.inr ⟨x, ⟨a, off, hd, ho, ha, .inl ⟨instr, idle⟩⟩, hc⟩))
  | runs v c _ _ config run =>
    by_cases hc : c = .config
    · exact .inr (.inr (.inl (config hc)))
    · obtain ⟨_, _, _, _, same⟩ := writeCommand_kept v c s u run
      exact .inl (same hc)

/-- R26: where status bit 30 comes from. -/
theorem Effect.status_bit30 {i : Instr} {s u : State} (h : Effect i s u) (h30 : u.status.getLsbD 30 = true) :
    s.status.getLsbD 30 = true ∨
      ∃ v : Word, v.getLsbD 30 = true ∧ (encode s.config i = .command v ∨ s.WritesCommand i v) := by
  cases h with
  | quiet | draws | moves | posts => exact .inl h30
  | resets => simp at h30
  | rawWrite a v _ instr write =>
    rcases busWrite_bit30 a v s u write h30 with before | ⟨off, x, hd, ho, ha, hv, hx⟩
    · exact .inl before
    · exact .inr ⟨x, hx, .inr ⟨a, off, hd, ho, ha, .inr (instr x hv)⟩⟩
  | cpuWrite a x _ instr idle write =>
    rcases busWrite_bit30 a _ _ u write h30 with before | ⟨off, y, hd, ho, ha, hv, hx⟩
    · exact .inl before
    · cases hv
      exact .inr ⟨x, hx, .inr ⟨a, off, hd, ho, ha, .inl ⟨instr, idle⟩⟩⟩
  | runs v c _ word _ run => exact .inr ⟨v, writeCommand_bit30 v c s u run h30, .inl word⟩

/-- Every instruction that answers a next state, a fault included, makes one of the controller's moves. -/
theorem exec_gateMove (i : Instr) (s t : State) (h : exec i s = .next t) : GateMove s t := by
  rcases exec_effect i s t h with ⟨u, r, he, rfl⟩ | ⟨k, rfl⟩
  · cases he.gateMove with
    | same gate => exact .same (gate.trans (respond_kept u r).2)
    | released busy pending => exact .released busy pending
    | begun busy pending => exact .begun busy pending
    | counted m n before left busy pending => exact .counted m n before left busy pending
  · exact .same ⟨rfl, rfl, rfl⟩

theorem exec_transmitReady (i : Instr) (s t : State) (h : exec i s = .next t) (hs : s.transmitReady = true) :
    t.transmitReady = true := by
  rcases exec_effect i s t h with ⟨u, r, he, rfl⟩ | ⟨k, rfl⟩
  · exact he.transmitReady hs
  · exact hs

/-! The invariant. -/

theorem Config.tWrite_pos (c : Config) (h : c.wf = true) : 0 < c.tWrite := by
  simp only [Config.wf, Bool.and_eq_true, decide_eq_true_eq] at h
  exact h.2

/-- The invariant says nothing of what has been presented. -/
theorem State.Inv.withInputs {s : State} (hs : s.Inv) (ps : List Presented) : State.Inv { s with inputs := ps } :=
  { hs with }

/-- Recording a fault keeps the invariant (R249). -/
theorem State.Inv.raise {s : State} (hs : s.Inv) (k : FaultKind) : (s.raise k).Inv := { hs with }

/-- System init gives a state that meets the invariant: `config` and `rom` are kept, and the rest is as at reset (R260). -/
theorem State.Inv.systemInit {s : State} (hs : s.Inv) : (systemInit s).Inv where
  config_wf := hs.config_wf
  busy_iff := by simp
  pending_range := fun _ h => nomatch h
  transmit_ready := rfl
  receive_idle := rfl
  staging_size := length_reset_staging
  cache_empty := fun _ => rfl
  cache_bound := Nat.zero_le _
  rom_wf := hs.rom_wf
  rom_below := hs.rom_below

/-- What every transaction but RESET keeps, the controller's moves and R192 together keep the invariant. -/
theorem State.Inv.of_kept {s t : State} (hs : s.Inv) (k : Kept s t) (g : GateMove s t) (tr : t.transmitReady = true) :
    t.Inv where
  config_wf := k.config ▸ hs.config_wf
  busy_iff := g.busy_iff hs.busy_iff
  pending_range := k.config ▸ g.pending_range (Config.tWrite_pos _ hs.config_wf) hs.pending_range
  transmit_ready := tr
  receive_idle := k.receive_idle hs.receive_idle
  staging_size := k.staging hs.staging_size
  cache_empty := k.cache_empty hs.cache_empty
  cache_bound := k.cache_bound hs.cache_bound
  rom_wf := k.rom_wf hs.rom_wf
  rom_below := k.config ▸ k.rom_below hs.rom_below

/-- Every instruction that answers a next state keeps the invariant. -/
theorem exec_keeps_inv (i : Instr) (s t : State) (hs : s.Inv) (h : exec i s = .next t) : t.Inv := by
  obtain ⟨_, enabled, ha | ⟨k, _, rfl⟩⟩ := exec_next i s t h
  · by_cases hi : i = .reset
    · subst hi; cases ha; exact hs.systemInit
    · exact hs.of_kept (action_kept i s t hi enabled ha) (exec_gateMove i s t h)
        (exec_transmitReady i s t h hs.transmit_ready)
  · exact hs.raise k

/-- Settles O52: a step idles, or runs one instruction on the state with its record taken, and every instruction keeps the
invariant. -/
theorem everyStepKeepsTheInvariant : Obligations.EveryStepKeepsTheInvariant := by
  intro s t hs h
  obtain ⟨_, ⟨_, rfl⟩ | ⟨p, rest, i, _, _, hx⟩⟩ := step_next s t h
  · exact hs
  · exact exec_keeps_inv i _ t (hs.withInputs rest) hx

/-- Settles O53: both fields say idle at reset, and every move of the controller keeps the equivalence. -/
theorem busyIffPendingIsKept : Obligations.BusyIffPendingIsKept := by
  constructor
  · exact ⟨nofun, fun h => absurd rfl h⟩
  · intro i s t hs h
    exact (exec_gateMove i s t h).busy_iff hs

/-- Settles O55: an instruction other than RESET that goes through only appends to the logs (`Kept`); a fault leaves them. -/
theorem logsOnlyGrow : Obligations.LogsOnlyGrow := by
  intro i s t hi h
  obtain ⟨_, enabled, ha | ⟨k, _, rfl⟩⟩ := exec_next i s t h
  · have kept := action_kept i s t hi enabled ha
    obtain ⟨sends, hsends⟩ := kept.outLog
    obtain ⟨writes, hwrites⟩ := kept.devLog
    exact ⟨⟨sends, hsends.symm⟩, ⟨writes, hwrites.symm⟩⟩
  · exact ⟨⟨[], (List.append_nil _).symm⟩, ⟨[], (List.append_nil _).symm⟩⟩

/-- Settles O56: RESET keeps the three fields by its definition (R261), every other instruction by `Kept`, and a fault changes
none of them. -/
theorem configurationIsFixed : Obligations.ConfigurationIsFixed := by
  intro i s t h
  obtain ⟨_, enabled, ha | ⟨k, _, rfl⟩⟩ := exec_next i s t h
  · by_cases hi : i = .reset
    · subst hi; cases ha; exact ⟨rfl, rfl, le_refl _⟩
    · have kept := action_kept i s t hi enabled ha
      exact ⟨kept.config, kept.inputs, kept.draws⟩
  · exact ⟨rfl, rfl, le_refl _⟩

/-- Settles O57: by the effects that leave another `sdramWritable`; a fault leaves it as it was. -/
theorem onlyTheConfigurationUpdateChangesTheGate : Obligations.OnlyTheConfigurationUpdateChangesTheGate := by
  intro i s t h changed
  rcases exec_effect i s t h with ⟨u, r, he, rfl⟩ | ⟨k, rfl⟩
  · exact he.sdramWritable.resolve_left changed
  · exact absurd rfl changed

/-- Settles O58: by the effects after which status bit 30 is set; a fault leaves `status` as it was. -/
theorem cpuBusyBitIsOnlyEverWritten : Obligations.CpuBusyBitIsOnlyEverWritten := by
  intro i s t h h30
  rcases exec_effect i s t h with ⟨u, r, he, rfl⟩ | ⟨k, rfl⟩
  · exact he.status_bit30 h30
  · exact .inl h30

end Sys2Proof.Machine
end

section
/-!
PROOFS, the memory family: the windows of a well-formed table partition the address space (O6), and every address decodes by
its window and that window's gate (O7, O8).
-/

namespace Sys2Proof.Machine

/-- The row of a window, by its name. -/
def windowRow (t : WindowTable) : WindowId → Window
  | .low => ⟨.low, 0, t.ddC2s - 1⟩
  | .ddC2s => ⟨.ddC2s, t.ddC2s, t.ddDs - 1⟩
  | .ddDs => ⟨.ddDs, t.ddDs, t.ddCtrl - 1⟩
  | .ddCtrl => ⟨.ddCtrl, t.ddCtrl, t.ddMs - 1⟩
  | .ddMs => ⟨.ddMs, t.ddMs, t.gap1 - 1⟩
  | .gap1 => ⟨.gap1, t.gap1, t.ddIpl - 1⟩
  | .ddIpl => ⟨.ddIpl, t.ddIpl, t.gap2 - 1⟩
  | .gap2 => ⟨.gap2, t.gap2, t.cartSave - 1⟩
  | .cartSave => ⟨.cartSave, t.cartSave, t.cartRom - 1⟩
  | .cartRom => ⟨.cartRom, t.cartRom, t.viewer - 1⟩
  | .viewer => ⟨.viewer, t.viewer, t.cfgBase - 1⟩
  | .cfg => ⟨.cfg, t.cfgBase, t.cfgBase + 15⟩
  | .rest => ⟨.rest, t.cfgBase + 16, 2 ^ 32 - 1⟩

theorem windowRow_mem (t : WindowTable) (id : WindowId) : windowRow t id ∈ windowRows t := by
  cases id <;> simp [windowRow, windowRows]

/-- The rows leave no gap (R51): where no row held an address, each row would end below it, so the next row would start at or
below it, up to REST, which ends at the last address. The order of the boundaries plays no part. -/
theorem exists_row_of_address (t : WindowTable) (a : Nat) (ha : a < 2 ^ 32) :
    ∃ r ∈ windowRows t, r.low ≤ a ∧ a ≤ r.high := by
  by_contra no_row
  have ends_below : ∀ r ∈ windowRows t, r.low ≤ a → r.high < a := by simpa using no_row
  simp only [windowRows, List.forall_mem_cons] at ends_below
  omega

/-- At most one row of a well-formed table holds an address (R51): the lookup answers each row that does. -/
theorem row_unique (t : WindowTable) (a : Nat) (h : t.wf = true) (q r : Window) (hq : q ∈ windowRows t)
    (hr : r ∈ windowRows t) (q1 : q.low ≤ a) (q2 : a ≤ q.high) (r1 : r.low ≤ a) (r2 : a ≤ r.high) : q = r :=
  Option.some.inj ((windowOf_of_holds t a h q hq q1 q2).symm.trans (windowOf_of_holds t a h r hr r1 r2))

/-- An address from a window's low end up to the next window's has the target of that window's row (R53). -/
theorem decodeAddress_in_window {c : Config} {a : Word} (h : c.windows.wf = true) (id : WindowId) {low next : Nat}
    (row : windowRow c.windows id = ⟨id, low, next - 1⟩) (from_low : low ≤ a.toNat) (below : a.toNat < next) :
    decodeAddress c a = targetOf c ⟨id, low, next - 1⟩ a.toNat :=
  decodeAddress_of_row c a h _ (row ▸ windowRow_mem c.windows id) from_low (Nat.le_sub_one_of_lt below)

/-- An address decodes to the flash device only where SRAM is absent (R54), whatever the table. -/
theorem decodeAddress_saveFlash (c : Config) (a : Word) (off : Nat) (h : decodeAddress c a = .mapped .saveFlash off) :
    c.ramPresent = false := by
  unfold decodeAddress at h
  split at h
  · cases h
  · next r _ => exact targetOf_saveFlash c r a.toNat off h

/-- Settles O6: the rows leave no gap, and the lookup answers the row that holds the address. -/
theorem windowsPartitionTheAddressSpace : Obligations.WindowsPartitionTheAddressSpace := by
  intro t a h
  obtain ⟨r, hr, r1, r2⟩ := exists_row_of_address t a.toNat a.isLt
  exact ⟨r, hr, r1, r2, windowOf_of_holds t a.toNat h r hr r1 r2,
    fun q hq q1 q2 => row_unique t a.toNat h q r hq hr q1 q2 r1 r2⟩

/-- Settles O7: each clause bounds the address by one window's interval, and its target is that row's by definition. -/
theorem addressDecodeFollowsTheWindowTable : Obligations.AddressDecodeFollowsTheWindowTable := by
  intro c a h
  exact ⟨decodeAddress_in_window h .low rfl (Nat.zero_le _), decodeAddress_in_window h .ddC2s rfl,
    decodeAddress_in_window h .ddDs rfl, decodeAddress_in_window h .ddCtrl rfl, decodeAddress_in_window h .ddMs rfl,
    decodeAddress_in_window h .gap1 rfl, decodeAddress_in_window h .ddIpl rfl, decodeAddress_in_window h .gap2 rfl,
    decodeAddress_in_window h .cartSave rfl, decodeAddress_in_window h .cartRom rfl,
    decodeAddress_in_window h .viewer rfl, decodeAddress_in_window h .cfg rfl,
    fun from_low => decodeAddress_in_window h .rest rfl from_low a.isLt⟩

/-- Settles O8: flash answers only where SRAM is absent, and in CART_SAVE the gate takes SRAM first. -/
theorem sramWinsOverFlash : Obligations.SramWinsOverFlash := by
  intro c a ram _
  refine ⟨fun off reached => ?_, fun h from_low below => ?_⟩
  · exact absurd (decodeAddress_saveFlash c a off reached) (by simp [ram])
  · rw [decodeAddress_in_window h .cartSave rfl from_low below]
    exact if_pos ram

end Sys2Proof.Machine
end

section
/-!
PROOFS, the encoding family: the decoder reads every record back (O1 to O5), the receive-ready query (O29), and a script of
register writes run by the machine (O59). A command code and the command it selects are related by `Selects`, which both
directions of the decoder's proofs use.
-/

namespace Sys2Proof.Machine
open Sys2Proof.Laws

/-! Descriptors (R80, R82, R83). -/

/-- A u16 widened to a u32 operand is read back whole (R123). -/
theorem decodeDmaWh_of_half (op : Byte) (a : Word) (h : Half) :
    decodeDmaWh ⟨op, a, .word (h.setWidth 32)⟩ = .ok (.dmaWh a h) := by
  have fits : (h.setWidth 32).toNat < 2 ^ 16 := by
    rw [BitVec.toNat_setWidth_of_le (by decide)]
    exact h.isLt
  have whole : (h.setWidth 32).setWidth 16 = h := BitVec.setWidth_setWidth_of_le h (by decide)
  simp only [decodeDmaWh, if_pos fits, whole]

/-- A payload of at most STAGE_N bytes is read (R217). -/
theorem decodeInbound_of_fits (op : Byte) (a : Word) (p : List Byte) (h : p.length ≤ stageN) :
    decodeInbound ⟨op, a, .bytes p⟩ = .ok (.inbound p) :=
  if_pos h

/-- An op outside both tables is refused by name (R82). -/
theorem decodeDescriptor_noSuchOp (d : Descriptor) (h : d.op.toNat ∉ tableOps) :
    decodeDescriptor d = .error (.noSuchOp d.op) := by
  simp only [tableOps, List.mem_cons, List.not_mem_nil, or_false, not_or] at h
  simp only [decodeDescriptor, h, if_false]

/-- Settles O1: ten of the ops read their operands as they stand; DMA_WH and INBOUND first check a bound, which the operand
meets; and the list of the statement is the decoder's own table of ops. -/
theorem descriptorOpsDecodeByTable : Obligations.DescriptorOpsDecodeByTable := by
  intro c a v h n p x
  refine ⟨rfl, rfl, rfl, rfl, decodeDmaWh_of_half _ a h, rfl, rfl, rfl, rfl, rfl, rfl,
    decodeInbound_of_fits 0x20#8 a p, ?_⟩
  intro op hop
  exact decodeDescriptor_noSuchOp _ ((List.mem_map_of_injective BitVec.toNat_injective).not.2 hop)

/-! Command words (R85, R180). -/

/-- The instruction of a command, from the upper bits and the whole of its word. -/
def commandInstr (hi : BitVec 24) (v : Word) : Command → Instr
  | .txReady => .txReady hi
  | .rxReady => .rxReady hi
  | .txData => .txData hi
  | .txDataLegacy => .txDataLegacy hi
  | .rxData => .rxData hi
  | .rxDataLegacy => .rxDataLegacy hi
  | .rxBusy => .rxBusy hi
  | .config => .config hi
  | .unrecognized => .unrecognized v

theorem decodeCommand_eq (c : Config) (v : Word) :
    decodeCommand c v = commandInstr (upperOf v) v (commandOf c.commands (codeOf v)) := rfl

/-- The code is the command's own; for the unrecognized command it is none of the eight. -/
def Selects (c : CommandCodes) (code : Byte) : Command → Prop
  | .txReady => code = c.txReady
  | .rxReady => code = c.rxReady
  | .txData => code = c.txData
  | .txDataLegacy => code = c.txDataLegacy
  | .rxData => code = c.rxData
  | .rxDataLegacy => code = c.rxDataLegacy
  | .rxBusy => code = c.rxBusy
  | .config => code = c.config
  | .unrecognized => code ∉ c.all

/-- The command found for a code is one the code selects, whether or not the codes are distinct. -/
theorem selects_commandOf (c : CommandCodes) (code : Byte) : Selects c code (commandOf c code) := by
  unfold commandOf
  split_ifs
  case neg => simp_all [Selects, CommandCodes.all]
  all_goals assumption

/-- With distinct codes a code selects one command only (R85). -/
theorem commandOf_eq_of_selects {c : CommandCodes} (hc : c.all.Nodup) {code : Byte} {k : Command}
    (h : Selects c code k) : commandOf c code = k := by
  obtain ⟨txReady, rxReady, txData, txDataLegacy, rxData, rxDataLegacy, rxBusy, config⟩ := commandOf_of_nodup c hc
  cases k
  case unrecognized =>
    simp only [Selects, CommandCodes.all, List.mem_cons, List.not_mem_nil, or_false, not_or] at h
    simp only [commandOf, h, if_false]
  all_goals
    subst h
    assumption

theorem decodeCommand_of_selects {c : Config} (hc : c.commands.all.Nodup) {v : Word} {k : Command}
    (h : Selects c.commands (codeOf v) k) : decodeCommand c v = commandInstr (upperOf v) v k := by
  rw [decodeCommand_eq, commandOf_eq_of_selects hc h]

theorem decodeCommand_commandWord {c : Config} (hc : c.commands.all.Nodup) (hi : BitVec 24) {code : Byte} {k : Command}
    (h : Selects c.commands code k) :
    decodeCommand c (commandWord hi code) = commandInstr hi (commandWord hi code) k := by
  rw [decodeCommand_of_selects hc ((codeOf_commandWord hi code).symm ▸ h), upperOf_commandWord]

/-- Settles O3: each code selects its command, and a code that is none of the eight selects the unrecognized one. -/
theorem commandCodeSelectsOneCommand : Obligations.CommandCodeSelectsOneCommand := by
  intro c hc
  refine ⟨fun hi => ?_, fun v hv => decodeCommand_of_selects hc (k := .unrecognized) hv⟩
  exact ⟨decodeCommand_commandWord hc hi (k := .txReady) rfl, decodeCommand_commandWord hc hi (k := .rxReady) rfl,
    decodeCommand_commandWord hc hi (k := .txData) rfl, decodeCommand_commandWord hc hi (k := .txDataLegacy) rfl,
    decodeCommand_commandWord hc hi (k := .rxData) rfl, decodeCommand_commandWord hc hi (k := .rxDataLegacy) rfl,
    decodeCommand_commandWord hc hi (k := .rxBusy) rfl, decodeCommand_commandWord hc hi (k := .config) rfl⟩

/-- Encoding a command a word's code selects puts the word together again from its upper bits and its code. -/
theorem encode_commandInstr (c : Config) (v : Word) (k : Command) (h : Selects c.commands (codeOf v) k) :
    encode c (commandInstr (upperOf v) v k) = .command v := by
  have whole : ∀ code, codeOf v = code → Presented.command (commandWord (upperOf v) code) = .command v := by
    rintro _ rfl
    rw [commandWord_eq]
  cases k
  case unrecognized => rfl
  all_goals exact whole _ h

/-- Settles O5: the decoder answers a command the word's code selects. -/
theorem commandWordsKeepEveryBit : Obligations.CommandWordsKeepEveryBit :=
  fun c v => encode_commandInstr c v _ (selects_commandOf c.commands (codeOf v))

theorem Config.commands_nodup {c : Config} (h : c.wf = true) : c.commands.all.Nodup := by
  simp only [Config.wf, CommandCodes.wf, Bool.and_eq_true, decide_eq_true_eq] at h
  obtain ⟨⟨⟨⟨_, _⟩, codes⟩, _⟩, _⟩ := h
  exact codes

/-- Settles O4: a descriptor is read back by its op, and a command word by its code, which selects one command because the
codes are distinct. -/
theorem decodeEncodeRoundTrip : Obligations.DecodeEncodeRoundTrip := by
  intro c i hc hi
  have codes : c.commands.all.Nodup := Config.commands_nodup hc
  have command {upper : BitVec 24} {code : Byte} (k : Command) (h : Selects c.commands code k) :
      decode c (.command (commandWord upper code)) = .ok (commandInstr upper (commandWord upper code) k) :=
    congrArg Except.ok (decodeCommand_commandWord codes upper h)
  cases i
  case dmaWh a v => exact decodeDmaWh_of_half _ a v
  case inbound p => exact decodeInbound_of_fits 0x20#8 0 p (of_decide_eq_true hi)
  case txReady => exact command .txReady rfl
  case rxReady => exact command .rxReady rfl
  case txData => exact command .txData rfl
  case txDataLegacy => exact command .txDataLegacy rfl
  case rxData => exact command .rxData rfl
  case rxDataLegacy => exact command .rxDataLegacy rfl
  case rxBusy => exact command .rxBusy rfl
  case config => exact command .config rfl
  case unrecognized v =>
    have other : Selects c.commands (codeOf v) .unrecognized := by
      simpa [Instr.wf, Selects, codeOf] using hi
    exact congrArg Except.ok (decodeCommand_of_selects codes other)
  all_goals rfl

/-- Settles O2: the decoder evaluated on each row. -/
theorem tableWordsDecode : Obligations.TableWordsDecode :=
  ⟨rfl, rfl, rfl, rfl, rfl, rfl, rfl⟩

/-! The receive-ready query (R90, R182). -/

/-- The ready word, field by field (R90). -/
theorem readyWord_eq (busy ready : Bool) : readyWord busy ready = BitVec.ofBool busy ++ 0#30 ++ BitVec.ofBool ready := by
  cases busy <;> cases ready <;> decide

/-- Both outcomes of the query as one: with nothing ready, `receiveReady` is false already. -/
theorem cmdRxReady_eq (s : State) :
    cmdRxReady s = .ok { s with
      data0 := BitVec.ofBool s.receiveBusy ++ 0#30 ++ BitVec.ofBool s.receiveReady
      data1 := if s.receiveReady then s.pendingResult else s.data1
      receiveReady := false
      pendingResult := 0#32 } := by
  cases h : s.receiveReady <;> simp [cmdRxReady, readyWord_eq, h]

/-- Settles O29: the query run on the state that holds its word. -/
theorem receiveReadyQueryAnswers : Obligations.ReceiveReadyQueryAnswers := by
  intro s hi hrun
  exact exec_ok (.rxReady hi) s _ hrun trivial (issue_of_ok _ cmdRxReady s _ (cmdRxReady_eq _))

/-! Scripts of register writes (R93, R264). -/

/-- A word write to the register block reaches the register its offset selects (R84, R112). -/
theorem busWrite_block (s : State) (off : Nat) (v : Word) (hw : s.config.windows.wf = true) (ho : off < 16)
    (aligned : off % 4 = 0) : busWrite (blockAddress s.config off) (.word v) s = regWrite off v s := by
  obtain ⟨_, _, _, _, _, _, _, _, _, _, _, top, base_aligned⟩ := WindowTable.facts _ hw
  have address : (blockAddress s.config off).toNat = s.config.windows.cfgBase + off := by
    rw [blockAddress, BitVec.toNat_ofNat, Nat.mod_eq_of_lt (by omega)]
  exact busWrite_mapped _ _ s .cfg off (decodeAddress_block _ hw _ off ho address)
    ((misaligned_word_iff _).2 (by omega))

/-- A CPU-class write of an idle controller writes its target and starts an in-flight period (R142). -/
theorem exec_cpuWw_of_idle (a v : Word) (s t : State) (hrun : s.fault = none) (idle : s.busy = false)
    (write : busWrite a (.word v) s = .ok t) :
    exec (.cpuWw a v) s = .next ((withGate true v (some s.config.tWrite) t).respond (.cycles s.config.tWchg)) :=
  exec_ok _ s _ hrun trivial (writeWord_idle a v s t idle write)

/-- What a completed write of `v` leaves of the state `u` with its target written: the controller idle, with the value in the
latch (R142, R145). -/
def written (v : Word) (u : State) : State := (withGate false v none u).respond .nothing

/-- Time enough completes the write in flight (R145). -/
theorem exec_advance_of_due (n m : Nat) (s : State) (hrun : s.fault = none) (pending : s.pending = some m)
    (due : m ≤ n) : exec (.advance n) s = .next (written s.latch s) := by
  have ended : elapse n s = withGate false s.latch none s := by
    simp only [elapse, pending, if_pos due, withGate]
  rw [exec_ok (.advance n) s _ hrun trivial rfl, ended, written]

/-- A step takes an instruction presented in its encoding, where the decoder reads it back. -/
theorem run_succ_of_encode (k : Nat) (s t : State) (i : Instr) (rest : List Presented) (hrun : s.fault = none)
    (hin : s.inputs = encode s.config i :: rest) (hd : decode s.config (encode s.config i) = .ok i)
    (hx : exec i { s with inputs := rest } = .next t) :
    Host.Core.run Sys2Proof.core (k + 1) s = Host.Core.run Sys2Proof.core k t := by
  have hstep : Sys2Proof.core.step s = .next t :=
    ((stepRunsTheDecodedTransaction s hrun).1 _ rest i hin hd).trans hx
  simp only [Host.Core.run, hstep]

/-- A register write and its wait, run from an idle state: the write does to the block what the register file does, and the wait
lets it complete. -/
theorem run_writeAndWait (k off : Nat) (v : Word) (rest : List Instr) (s u : State) (hrun : s.fault = none)
    (idle : s.busy = false) (hw : s.config.windows.wf = true) (ho : off < 16) (aligned : off % 4 = 0)
    (write : ∀ ps, regWrite off v { s with inputs := ps } = .ok { u with inputs := ps }) :
    Host.Core.run Sys2Proof.core (k + 2)
        { s with inputs := present s.config (writeAndWait s.config off v ++ rest) } =
      Host.Core.run Sys2Proof.core k { written v u with inputs := present s.config rest } := by
  have wrote (ps : List Presented) :
      busWrite (blockAddress s.config off) (.word v) { s with inputs := ps } = .ok { u with inputs := ps } :=
    (busWrite_block { s with inputs := ps } off v hw ho aligned).trans (write ps)
  have still_running : u.fault = none := (busWrite_kept _ _ _ _ (wrote [])).1.fault.trans hrun
  have accepted := run_succ_of_encode (k + 1) { s with inputs := present s.config (writeAndWait s.config off v ++ rest) } _
    (.cpuWw (blockAddress s.config off) v) _ hrun rfl rfl (exec_cpuWw_of_idle _ v _ _ hrun idle (wrote _))
  exact accepted.trans (run_succ_of_encode k _ _ (.advance s.config.tWrite) (present s.config rest) still_running rfl rfl
    (exec_advance_of_due _ s.config.tWrite _ still_running rfl (le_refl _)))

/-- Settles O59: the two scripts one after the other, the second from the idle state the first leaves. -/
theorem setArgumentScriptsRun : Obligations.SetArgumentScriptsRun := by
  intro s d0 d1 hrun idle hw script
  have first := run_writeAndWait 2 0x4 d0 (writeAndWait s.config 0x8 d1) s { s with data0 := d0 } hrun idle hw
    (by decide) (by decide) (fun _ => rfl)
  have second := run_writeAndWait 0 0x8 d1 [] (written d0 { s with data0 := d0 })
    { written d0 { s with data0 := d0 } with data1 := d1 } hrun rfl hw (by decide) (by decide) (fun _ => rfl)
  exact first.trans second

end Sys2Proof.Machine
end

section
/-!
PROOFS, the bus access family: what a DMA-class or CPU-class access answers, target by target: nothing there (O9 to O11), the
ROM store (O14 to O16), an external device (O17), the register block (O19).
-/

namespace Sys2Proof.Machine

/-! An access that goes through, by what the bus answers (R121 to R124, R141). A CPU-class write stands above, in
`exec_cpuWw_of_idle`. -/

section
variable {s t : State} {a : Word} (hrun : s.fault = none)
include hrun

theorem exec_dmaRw_of_busRead {v : BusValue} (read : busRead .word a s = .ok (v, t)) :
    exec (.dmaRw a) s = .next (t.respond (.value v)) :=
  exec_ok _ s _ hrun trivial (dmaRead_of_ok .word a s t v read)

theorem exec_dmaRh_of_busRead {v : BusValue} (read : busRead .half a s = .ok (v, t)) :
    exec (.dmaRh a) s = .next (t.respond (.value v)) :=
  exec_ok _ s _ hrun trivial (dmaRead_of_ok .half a s t v read)

theorem exec_dmaWw_of_busWrite {v : Word} (write : busWrite a (.word v) s = .ok t) :
    exec (.dmaWw a v) s = .next (t.respond .nothing) :=
  exec_ok _ s _ hrun trivial (dmaWrite_of_ok a (.word v) s t write)

theorem exec_dmaWh_of_busWrite {v : Half} (write : busWrite a (.half v) s = .ok t) :
    exec (.dmaWh a v) s = .next (t.respond .nothing) :=
  exec_ok _ s _ hrun trivial (dmaWrite_of_ok a (.half v) s t write)

theorem exec_cpuRw_of_idle {v : BusValue} (idle : s.busy = false) (read : busRead .word a s = .ok (v, t)) :
    exec (.cpuRw a) s = .next (t.respond (.valueAndCycles (widen v) s.config.tRead)) :=
  exec_ok _ s _ hrun trivial (readWord_idle a s t v idle read)

end

/-! Unmapped addresses (R115, R119, R125, R126). -/

theorem patternOf_word (a : Word) : patternOf .word a = .word (a.setWidth 16 ++ a.setWidth 16) :=
  congrArg BusValue.word (pattern32_eq a)

theorem patternOf_half (a : Word) : patternOf .half a = .half (a.setWidth 16) :=
  congrArg BusValue.half (pattern16_eq a)

/-- With the disk drive absent its four adjacent windows and its IPL window are unmapped (R53). -/
theorem decodeAddress_drive_absent {c : Config} {a : Word} (h : c.windows.wf = true) (absent : c.ddPresent = false)
    (within : (c.windows.ddC2s ≤ a.toNat ∧ a.toNat < c.windows.gap1) ∨
      (c.windows.ddIpl ≤ a.toNat ∧ a.toNat < c.windows.gap2)) : decodeAddress c a = .unmapped := by
  obtain ⟨_, c2s, ds, ctrl, ms, _, ipl, _⟩ := addressDecodeFollowsTheWindowTable c a h
  simp only [absent, Bool.false_eq_true, if_false] at c2s ds ctrl ms ipl
  rcases within with ⟨from_low, below⟩ | ⟨from_low, below⟩
  · rcases Nat.lt_or_ge a.toNat c.windows.ddDs with below_ds | from_ds
    · exact c2s from_low below_ds
    rcases Nat.lt_or_ge a.toNat c.windows.ddCtrl with below_ctrl | from_ctrl
    · exact ds from_ds below_ctrl
    rcases Nat.lt_or_ge a.toNat c.windows.ddMs with below_ms | from_ms
    · exact ctrl from_ctrl below_ms
    · exact ms from_ms below
  · exact ipl from_low below

/-- Settles O9: each of the windows is unmapped, and the bus answers an unmapped read with the pattern and the same state. -/
theorem gapAndAbsentReadsGiveThePattern : Obligations.GapAndAbsentReadsGiveThePattern := by
  intro s a h c t x within
  have unmapped : decodeAddress s.config a = .unmapped := by
    obtain ⟨low, _, _, _, _, gap1, _, gap2, cartSave, cartRom, viewer, _, rest⟩ :=
      addressDecodeFollowsTheWindowTable s.config a h
    rcases within with below | ⟨from_low, below⟩ | ⟨from_low, below⟩ | from_low | ⟨absent, drive⟩ |
      ⟨no_ram, no_flash, from_low, below⟩ | ⟨absent, from_low, below⟩ | ⟨absent, from_low, below⟩
    · exact low below
    · exact gap1 from_low below
    · exact gap2 from_low below
    · exact rest from_low
    · exact decodeAddress_drive_absent h absent drive
    · exact (cartSave from_low below).trans
        ((if_neg (ne_true_of_eq_false no_ram)).trans (if_neg (ne_true_of_eq_false no_flash)))
    · exact (cartRom from_low below).trans (if_neg (ne_true_of_eq_false absent))
    · exact (viewer from_low below).trans (if_neg (ne_true_of_eq_false absent))
  exact ⟨busRead_unmapped .word a s unmapped, patternOf_half a ▸ busRead_unmapped .half a s unmapped⟩

/-- Settles O10: the bus answers the pattern and the same state, and each access returns that answer. -/
theorem unmappedReadsReturnThePattern : Obligations.UnmappedReadsReturnThePattern := by
  intro s a hrun unmapped
  have word := patternOf_word a ▸ busRead_unmapped .word a s unmapped
  have half := patternOf_half a ▸ busRead_unmapped .half a s unmapped
  exact ⟨exec_dmaRw_of_busRead hrun word, exec_dmaRh_of_busRead hrun half,
    fun idle => exec_cpuRw_of_idle hrun idle word⟩

/-- Settles O11: the bus answers the same state, and a CPU-class write still starts the controller. -/
theorem unmappedWritesAreDiscarded : Obligations.UnmappedWritesAreDiscarded := by
  intro s a v h hrun unmapped
  exact ⟨exec_dmaWw_of_busWrite hrun (busWrite_unmapped a _ s unmapped),
    exec_dmaWh_of_busWrite hrun (busWrite_unmapped a _ s unmapped),
    fun idle => exec_cpuWw_of_idle a v s s hrun idle (busWrite_unmapped a _ s unmapped)⟩

/-! The ROM store (R113, R117). -/

theorem romBusRead_beyond {w : Width} {off : Nat} {s : State} (beyond : s.config.romSize < off + nbytes w) :
    romBusRead w off s = drawValue w s :=
  if_neg (Nat.not_le_of_lt beyond)

theorem romBusRead_word_inside {off : Nat} {s : State} (inside : off + 4 ≤ s.config.romSize) :
    romBusRead .word off s = (.word (s.rom.word off), s) :=
  if_pos inside

theorem romBusRead_half_inside {off : Nat} {s : State} (inside : off + 2 ≤ s.config.romSize) :
    romBusRead .half off s = (.half (s.rom.half off), s) :=
  if_pos inside

theorem romBusWrite_inside {off : Nat} {v : BusValue} {s : State} (writable : s.sdramWritable = true)
    (inside : off + nbytes (widthOf v) ≤ s.config.romSize) :
    romBusWrite off v s = { s with rom := s.rom.writeBytes off (bytesBe v) } :=
  if_pos (by simp only [writable, inside, decide_true, Bool.and_self])

theorem romBusWrite_discarded {off : Nat} {v : BusValue} {s : State}
    (closed : s.sdramWritable = false ∨ s.config.romSize < off + nbytes (widthOf v)) : romBusWrite off v s = s := by
  refine if_neg fun accepted => ?_
  obtain ⟨writable, inside⟩ := Bool.and_eq_true _ _ ▸ accepted
  rcases closed with gated | beyond
  · exact absurd writable (ne_true_of_eq_false gated)
  · exact absurd (of_decide_eq_true inside) (Nat.not_le_of_lt beyond)

/-- A Word written by its big-endian bytes is read back whole (R59). -/
theorem Memory.word_writeBytes (m : Memory) (off : Nat) (v : Word) (hm : m.wf = true) :
    (m.writeBytes off (bytesBe (.word v))).word off = v := by
  have byte (i : Nat) (inside : i < 4) := Memory.read_writeBytes_inside m off i (bytesBe (.word v)) hm inside
  have first : (m.writeBytes off (bytesBe (.word v))).read off = v.extractLsb' 24 8 := byte 0 (by decide)
  rw [Memory.word, first, byte 1 (by decide), byte 2 (by decide), byte 3 (by decide)]
  exact be32_bytesBe v

/-- A Half written by its big-endian bytes is read back whole (R59). -/
theorem Memory.half_writeBytes (m : Memory) (off : Nat) (v : Half) (hm : m.wf = true) :
    (m.writeBytes off (bytesBe (.half v))).half off = v := by
  have byte (i : Nat) (inside : i < 2) := Memory.read_writeBytes_inside m off i (bytesBe (.half v)) hm inside
  have first : (m.writeBytes off (bytesBe (.half v))).read off = v.extractLsb' 8 8 := byte 0 (by decide)
  rw [Memory.half, first, byte 1 (by decide)]
  exact be16_bytesBe v

section
variable {s : State} {a : Word} {off : Nat} (mapped : decodeAddress s.config a = .mapped .rom off)
include mapped

theorem busRead_rom (w : Width) (aligned : misaligned w a = false) : busRead w a s = .ok (romBusRead w off s) :=
  busRead_mapped w a s .rom off mapped aligned

theorem busWrite_rom (v : BusValue) (aligned : misaligned (widthOf v) a = false) :
    busWrite a v s = .ok (romBusWrite off v s) :=
  busWrite_mapped a v s .rom off mapped aligned

end

/-- Settles O14: an aligned read reaches the store, which answers its bytes inside and a draw beyond. -/
theorem romReadsAreBigEndianInsideTheStore : Obligations.RomReadsAreBigEndianInsideTheStore := by
  intro s a off hrun mapped
  have word (aligned : a.toNat % 4 = 0) := busRead_rom mapped .word ((misaligned_word_iff a).2 aligned)
  have half (aligned : a.toNat % 2 = 0) := busRead_rom mapped .half ((misaligned_half_iff a).2 aligned)
  refine ⟨fun aligned inside => ?_, fun aligned inside => ?_, fun aligned beyond => ?_, fun aligned beyond => ?_⟩
  · exact exec_dmaRw_of_busRead hrun (romBusRead_word_inside inside ▸ word aligned)
  · exact exec_dmaRh_of_busRead hrun (romBusRead_half_inside inside ▸ half aligned)
  · exact exec_dmaRw_of_busRead hrun (romBusRead_beyond (w := .word) beyond ▸ word aligned)
  · exact exec_dmaRh_of_busRead hrun (romBusRead_beyond (w := .half) beyond ▸ half aligned)

/-- Settles O15: an aligned write reaches the store, where the value's bytes are read back and no other offset changes. -/
theorem romWritesStoreBigEndianBytes : Obligations.RomWritesStoreBigEndianBytes := by
  intro s a v h off hrun hrom writable mapped
  refine ⟨fun aligned inside => ?_, fun aligned inside => ?_⟩
  · have write := busWrite_rom mapped (.word v) ((misaligned_word_iff a).2 aligned)
    rw [romBusWrite_inside writable inside] at write
    exact ⟨_, exec_dmaWw_of_busWrite hrun write, Memory.word_writeBytes s.rom off v hrom,
      fun x outside => Memory.read_writeBytes_outside s.rom off x _ outside, rfl⟩
  · have write := busWrite_rom mapped (.half h) ((misaligned_half_iff a).2 aligned)
    rw [romBusWrite_inside writable inside] at write
    exact ⟨_, exec_dmaWh_of_busWrite hrun write, Memory.half_writeBytes s.rom off h hrom,
      fun x outside => Memory.read_writeBytes_outside s.rom off x _ outside, rfl⟩

/-- Settles O16: an aligned write reaches the store, which discards it. -/
theorem romWritesAreGatedAndBounded : Obligations.RomWritesAreGatedAndBounded := by
  intro s a v h off hrun mapped
  refine ⟨fun aligned closed => ?_, fun aligned closed => ?_⟩
  · have write := busWrite_rom mapped (.word v) ((misaligned_word_iff a).2 aligned)
    rw [romBusWrite_discarded (v := .word v) closed] at write
    exact exec_dmaWw_of_busWrite hrun write
  · have write := busWrite_rom mapped (.half h) ((misaligned_half_iff a).2 aligned)
    rw [romBusWrite_discarded (v := .half h) closed] at write
    exact exec_dmaWh_of_busWrite hrun write

/-! External devices (R114, R118): every device but the register block and the ROM store. -/

section
variable {s : State} {a : Word} {dev : Device} {off : Nat} (mapped : decodeAddress s.config a = .mapped dev off)
  (not_block : dev ≠ .cfg) (not_rom : dev ≠ .rom)
include mapped not_block not_rom

theorem busRead_external (w : Width) (aligned : misaligned w a = false) : busRead w a s = .ok (drawValue w s) := by
  rw [busRead_mapped w a s dev off mapped aligned]
  cases dev
  case cfg => exact absurd rfl not_block
  case rom => exact absurd rfl not_rom
  all_goals rfl

theorem busWrite_external (v : BusValue) (aligned : misaligned (widthOf v) a = false) :
    busWrite a v s = .ok (devWrite dev a off v s) := by
  rw [busWrite_mapped a v s dev off mapped aligned]
  cases dev
  case cfg => exact absurd rfl not_block
  case rom => exact absurd rfl not_rom
  all_goals rfl

end

/-- Settles O17: an aligned read reaches the device's draw, an aligned write its log. -/
theorem externalDevicesDrawAndLog : Obligations.ExternalDevicesDrawAndLog := by
  intro s a v h dev off hrun mapped not_block not_rom
  refine ⟨fun aligned => ?_, fun aligned => ?_⟩
  · have word := (misaligned_word_iff a).2 aligned
    exact ⟨exec_dmaRw_of_busRead hrun (busRead_external mapped not_block not_rom .word word),
      exec_dmaWw_of_busWrite hrun (busWrite_external mapped not_block not_rom (.word v) word)⟩
  · have half := (misaligned_half_iff a).2 aligned
    exact ⟨exec_dmaRh_of_busRead hrun (busRead_external mapped not_block not_rom .half half),
      exec_dmaWh_of_busWrite hrun (busWrite_external mapped not_block not_rom (.half h) half)⟩

/-! The command register (R120, R162, R163). -/

/-- A command presented by itself, by a code that selects it, issues the whole of its word (entry 2). -/
theorem actionOf_commandInstr (s : State) (v : Word) (k : Command) (h : Selects s.config.commands (codeOf v) k) :
    actionOf (commandInstr (upperOf v) v k) s = issue v (runCommand k) s := by
  have whole (code : Byte) (selected : codeOf v = code) :
      issue (commandWord (upperOf v) code) (runCommand k) s = issue v (runCommand k) s := by
    rw [← selected, Laws.commandWord_eq]
  cases k
  case unrecognized => rfl
  all_goals exact whole _ h

/-- The command a word spells stores the word and dispatches it (R162, R180). -/
theorem actionOf_decodeCommand (s : State) (v : Word) :
    actionOf (decodeCommand s.config v) s = issue v (dispatch v) s :=
  actionOf_commandInstr s v _ (selects_commandOf s.config.commands (codeOf v))

/-- No command word spells INBOUND, so it is enabled in every state (R216). -/
theorem enabled_decodeCommand (s : State) (v : Word) : enabled (decodeCommand s.config v) s := by
  rw [decodeCommand_eq]
  cases commandOf s.config.commands (codeOf v) <;> trivial

theorem exec_decodeCommand_of_ok {s t : State} {v : Word} (hrun : s.fault = none)
    (command : writeCommand v (dispatch v) s = .ok t) :
    exec (decodeCommand s.config v) s = .next (t.respond .nothing) :=
  exec_ok _ s _ hrun (enabled_decodeCommand s v)
    ((actionOf_decodeCommand s v).trans (issue_of_ok v (dispatch v) s t command))

theorem exec_decodeCommand_of_error {s : State} {v : Word} {k : FaultKind} (hrun : s.fault = none)
    (command : writeCommand v (dispatch v) s = .error k) : exec (decodeCommand s.config v) s = .next (s.raise k) :=
  exec_error _ s k hrun ((actionOf_decodeCommand s v).trans (issue_of_error v (dispatch v) s k command))

/-- Settles O19: a Word write of the block reaches its register. At the command register its outcome is that of the command
presented by itself, whether that goes through or faults; a CPU-class write adds the busy period where it goes through. -/
theorem registerBlockWrites : Obligations.RegisterBlockWrites := by
  intro s v hrun hw c
  have command_register := busWrite_block s 0x0 v hw (by decide) (by decide)
  have data0 := busWrite_block s 0x4 v hw (by decide) (by decide)
  have data1 := busWrite_block s 0x8 v hw (by decide) (by decide)
  have version := busWrite_block s 0xC v hw (by decide) (by decide)
  have dma_command : exec (.dmaWw (blockAddress c 0x0) v) s = exec (decodeCommand c v) s := by
    cases command : writeCommand v (dispatch v) s with
    | ok t =>
      rw [exec_decodeCommand_of_ok hrun command]
      exact exec_dmaWw_of_busWrite hrun (command_register.trans command)
    | error k =>
      rw [exec_decodeCommand_of_error hrun command]
      exact exec_error _ s k hrun (dmaWrite_of_error _ _ s k (command_register.trans command))
  refine ⟨dma_command, exec_dmaWw_of_busWrite hrun data0, exec_dmaWw_of_busWrite hrun data1,
    exec_dmaWw_of_busWrite hrun version, ?_⟩
  intro idle busyWith
  refine ⟨?_, exec_cpuWw_of_idle _ v s _ hrun idle data0, exec_cpuWw_of_idle _ v s _ hrun idle data1,
    exec_cpuWw_of_idle _ v s _ hrun idle version⟩
  cases command : writeCommand v (dispatch v) s with
  | ok t =>
    have running : (t.respond .nothing).fault = none := (writeCommand_kept v _ s t command).1.fault.trans hrun
    refine ⟨_, exec_decodeCommand_of_ok hrun command, ?_⟩
    rw [if_pos running]
    exact exec_cpuWw_of_idle _ v s t hrun idle (command_register.trans command)
  | error k =>
    refine ⟨_, exec_decodeCommand_of_error hrun command, ?_⟩
    rw [if_neg (by simp)]
    exact exec_error _ s k hrun (writeWord_idle_error _ v s k idle (command_register.trans command))

end Sys2Proof.Machine
end

section
/-!
PROOFS, the controller family: the CPU entry points go through the gate (O20, O21), a write in flight and what a read, a second
write and the passage of time make of it (O22 to O25), the host operations (O26), and the raw path past the gate (O27).
-/

namespace Sys2Proof.Machine

/-! A forced finish and the passage of time, by what is pending (R145, R146). -/

theorem drain_of_pending {m : Nat} {s : State} (pending : s.pending = some m) :
    drain s = withGate false s.latch none s := by
  simp only [drain, pending, withGate]

theorem drain_of_not_pending {s : State} (pending : s.pending = none) : drain s = s := by
  simp only [drain, pending]

theorem cyclesRemaining_of_pending {m : Nat} {s : State} (pending : s.pending = some m) : s.cyclesRemaining = m := by
  simp only [State.cyclesRemaining, pending]

theorem cyclesRemaining_of_not_pending {s : State} (pending : s.pending = none) : s.cyclesRemaining = 0 := by
  simp only [State.cyclesRemaining, pending]

theorem elapse_of_not_pending {s : State} (n : Nat) (pending : s.pending = none) : elapse n s = s := by
  simp only [elapse, pending]

theorem elapse_of_due {n m : Nat} {s : State} (pending : s.pending = some m) (due : m ≤ n) :
    elapse n s = withGate false s.latch none s := by
  simp only [elapse, pending, if_pos due, withGate]

theorem elapse_of_not_due {n m : Nat} {s : State} (pending : s.pending = some m) (left : n < m) :
    elapse n s = withGate s.busy s.latch (some (m - n)) s := by
  simp only [elapse, pending, if_neg (Nat.not_le_of_lt left), withGate]

/-- Time passes whatever the last response was. -/
theorem elapse_respond (n : Nat) (s : State) (r : Response) : elapse n (s.respond r) = (elapse n s).respond r := by
  rcases elapse_cases n s with ⟨pending, e⟩ | ⟨m, pending, due, e⟩ | ⟨m, pending, left, e⟩ <;> rw [e]
  · exact elapse_of_not_pending n pending
  · exact elapse_of_due pending due
  · exact elapse_of_not_due pending left

/-- Cycles add up: a completion falls due in the first span, in the second, or in neither (R145, R253). -/
theorem elapse_elapse (m n : Nat) (s : State) : elapse n (elapse m s) = elapse (m + n) s := by
  rcases elapse_cases m s with ⟨pending, e⟩ | ⟨k, pending, due, e⟩ | ⟨k, pending, left, e⟩ <;> rw [e]
  · rw [elapse_of_not_pending n pending, elapse_of_not_pending (m + n) pending]
  · rw [elapse_of_due pending (show k ≤ m + n by omega)]
    exact elapse_of_not_pending n rfl
  · rcases Nat.lt_or_ge (m + n) k with still | due
    · rw [elapse_of_not_due pending still, elapse_of_not_due (m := k - m) rfl (by omega), ← Nat.sub_sub]
      rfl
    · rw [elapse_of_due pending due, elapse_of_due (m := k - m) rfl (by omega)]
      rfl

/-! The transactions on the controller, in a running state. -/

section
variable {s : State} (hrun : s.fault = none)
include hrun

theorem exec_advance (n : Nat) : exec (.advance n) s = .next ((elapse n s).respond .nothing) :=
  exec_ok _ s _ hrun trivial rfl

theorem exec_forceFinish : exec .forceFinish s = .next ((drain s).respond (.cycles s.cyclesRemaining)) :=
  exec_ok _ s _ hrun trivial rfl

theorem exec_isBusy : exec .isBusy s = .next (s.respond (.flag s.busy)) :=
  exec_ok _ s _ hrun trivial rfl

theorem exec_latchedValue : exec .latchedValue s = .next (s.respond (.latched s.latch)) :=
  exec_ok _ s _ hrun trivial rfl

theorem exec_cpuRw_of_busy (a : Word) (busy : s.busy = true) :
    exec (.cpuRw a) s = .next ((drain s).respond (.valueAndCycles s.latch s.cyclesRemaining)) :=
  exec_ok _ s _ hrun trivial (readWord_busy a s busy)

theorem exec_cpuWw_of_busy (a v : Word) (busy : s.busy = true) :
    exec (.cpuWw a v) s = .next (s.respond (.cycles s.config.tWchg)) :=
  exec_ok _ s _ hrun trivial (writeWord_busy a v s busy)

end

/-- Settles O20: while busy the read drains what is pending, and while idle it answers what the bus answers, always a Word. -/
theorem readWordGoesThroughTheGate : Obligations.ReadWordGoesThroughTheGate := by
  intro s a hrun
  refine ⟨fun busy => ?_, fun idle => ⟨fun v t read => ?_, fun k read => ?_, fun v t read => ?_⟩⟩
  · have read := exec_cpuRw_of_busy hrun a busy
    refine ⟨fun m pending => ?_, fun pending => ?_⟩
    · rwa [drain_of_pending pending, cyclesRemaining_of_pending pending] at read
    · rwa [drain_of_not_pending pending, cyclesRemaining_of_not_pending pending] at read
  · exact exec_cpuRw_of_idle hrun idle read
  · exact exec_error _ s k hrun (readWord_idle_error a s k idle read)
  · obtain ⟨width, _⟩ := busRead_ok .word a s t (.half v) read
    exact absurd width nofun

/-- Settles O21: a write is dropped while busy, and while idle it has the outcome of the bus write. -/
theorem writeWordGoesThroughTheGate : Obligations.WriteWordGoesThroughTheGate := by
  intro s a v hrun
  refine ⟨exec_cpuWw_of_busy hrun a v, fun idle => ⟨fun t write => ?_, fun k write => ?_⟩⟩
  · exact exec_cpuWw_of_idle a v s t hrun idle write
  · exact exec_error _ s k hrun (writeWord_idle_error a v s k idle write)

/-! A write in flight (R23, R24, R142). -/

/-- The block runs, and a CPU-class write of `v` is in flight, due in `m` cycles. -/
structure InFlight (v : Word) (m : Nat) (s : State) : Prop where
  running : s.fault = none
  busy : s.busy = true
  latch : s.latch = v
  pending : s.pending = some m

/-- A CPU-class write of an idle controller that records no fault is in flight, due in T_WRITE cycles: what the bus writes
leaves the controller as the write set it (R142). -/
theorem inFlight_of_accepted {s t : State} {a v : Word} (idle : s.busy = false)
    (write : exec (.cpuWw a v) s = .next t) (running : t.fault = none) : InFlight v s.config.tWrite t := by
  obtain ⟨_, _, accepted | ⟨k, _, rfl⟩⟩ := exec_next _ s t write
  · rcases writeWord_ok a v s t accepted with ⟨busy, _⟩ | ⟨_, u, wrote, rfl⟩
    · exact absurd busy (ne_true_of_eq_false idle)
    · obtain ⟨_, gate, _, _⟩ := busWrite_kept a _ (beginWrite v s) u wrote
      exact ⟨running, gate.busy, gate.latch, gate.pending⟩
  · exact absurd running (by simp [State.raise])

/-- Fewer cycles than are left count down, and the write stays in flight (R145). -/
theorem InFlight.advance {v : Word} {m n : Nat} {s : State} (h : InFlight v m s) (left : n < m) :
    ∃ t, exec (.advance n) s = .next t ∧ InFlight v (m - n) t := by
  refine ⟨_, exec_advance h.running n, ?_⟩
  rw [elapse_of_not_due h.pending left]
  exact ⟨h.running, h.busy, h.latch, rfl⟩

/-- A CPU-class read of a write in flight returns its value, completes it and charges what is left of it (R141). -/
theorem InFlight.exec_cpuRw {v : Word} {m : Nat} {s : State} (h : InFlight v m s) (a : Word) :
    exec (.cpuRw a) s = .next ((withGate false v none s).respond (.valueAndCycles v m)) := by
  rw [exec_cpuRw_of_busy h.running a h.busy, drain_of_pending h.pending, cyclesRemaining_of_pending h.pending, h.latch]

/-- Settles O22: the accepted write is in flight, the advance leaves it in flight, and the read completes it. -/
theorem writeThenReadReturnsTheLatch : Obligations.WriteThenReadReturnsTheLatch := by
  intro s t u a b v n idle left write running advance
  obtain ⟨u', advanced, flight⟩ := (inFlight_of_accepted idle write running).advance left
  cases advance.symm.trans advanced
  exact ⟨_, flight.exec_cpuRw b, rfl, rfl, rfl⟩

/-- Settles O23: a write in flight, right away or after the advance, is a busy state, and there a write is dropped. -/
theorem secondWriteWhileBusyIsDropped : Obligations.SecondWriteWhileBusyIsDropped := by
  refine ⟨fun s b w hrun busy => exec_cpuWw_of_busy hrun b w busy, ?_⟩
  intro s t a b v w idle write running
  have first := inFlight_of_accepted idle write running
  refine ⟨⟨exec_cpuWw_of_busy running b w first.busy, first.latch, first.pending⟩, fun n left => ?_⟩
  obtain ⟨u, advanced, flight⟩ := first.advance left
  exact ⟨u, advanced, flight.latch, flight.pending, exec_cpuWw_of_busy flight.running b w flight.busy⟩

/-- Settles O24: the three cases of the passage of time. -/
theorem advanceCountsDown : Obligations.AdvanceCountsDown := by
  intro s n hrun
  rw [exec_advance hrun n]
  refine ⟨fun pending => ?_, fun m pending due => ?_, fun m pending left => ?_⟩
  · rw [elapse_of_not_pending n pending]
    rfl
  · rw [elapse_of_due pending due]
    rfl
  · rw [elapse_of_not_due pending left]
    rfl

/-- Settles O25: an advance answers from a running state, and leaves one from which the second span passes. -/
theorem advancesAddUp : Obligations.AdvancesAddUp := by
  intro s t m n first
  obtain ⟨hrun, _⟩ := exec_next _ s t first
  cases (exec_advance hrun m).symm.trans first
  have still_running : ((elapse m s).respond .nothing).fault = none := (elapse_kept m s).fault.trans hrun
  rw [exec_advance still_running n, exec_advance hrun (m + n), elapse_respond, elapse_elapse]
  rfl

/-- Settles O26: a forced finish drains what is pending; the two queries answer their field. -/
theorem hostOperationsOnTheController : Obligations.HostOperationsOnTheController := by
  intro s hrun
  have finish := exec_forceFinish hrun
  refine ⟨fun m pending => ?_, fun pending => ?_, exec_isBusy hrun, exec_latchedValue hrun⟩
  · rwa [drain_of_pending pending, cyclesRemaining_of_pending pending] at finish
  · rwa [drain_of_not_pending pending, cyclesRemaining_of_not_pending pending] at finish

/-! The raw path past the gate (R151). -/

theorem dmaRead_withGate (b : Bool) (l : Word) (p : Option Nat) (w : Width) (a : Word) (s : State) :
    dmaRead w a (withGate b l p s) = (dmaRead w a s).map (withGate b l p) := by
  rw [dmaRead, dmaRead, busRead_withGate]
  cases busRead w a s <;> rfl

theorem dmaWrite_withGate (b : Bool) (l : Word) (p : Option Nat) (a : Word) (v : BusValue) (s : State) :
    dmaWrite a v (withGate b l p s) = (dmaWrite a v s).map (withGate b l p) := by
  rw [dmaWrite, dmaWrite, busWrite_withGate]
  cases busWrite a v s <;> rfl

/-- A transaction whose action neither reads nor writes the controller does not either, whether it goes through or faults. -/
theorem transact_withGate {b : Bool} {l : Word} {p : Option Nat} {x : Action} {s t : State}
    (bypasses : x (withGate b l p s) = (x s).map (withGate b l p)) (h : transact s x = .next t) :
    transact (withGate b l p s) x = .next (withGate b l p t) := by
  obtain ⟨hrun, ok | ⟨k, error, rfl⟩⟩ := transact_next s t x h
  · exact transact_ok _ _ x hrun (by rw [bypasses, ok]; rfl)
  · exact transact_error _ k x hrun (by rw [bypasses, error]; rfl)

/-- Settles O27: each of the four is a transaction with a raw read or a raw write. -/
theorem dmaBypassesTheGate : Obligations.DmaBypassesTheGate := by
  rintro s t i b l p ⟨a, v, h, rfl | rfl | rfl | rfl⟩ step
  · exact transact_withGate (dmaRead_withGate b l p .half a s) step
  · exact transact_withGate (dmaRead_withGate b l p .word a s) step
  · exact transact_withGate (dmaWrite_withGate b l p a (.half h) s) step
  · exact transact_withGate (dmaWrite_withGate b l p a (.word v) s) step

end Sys2Proof.Machine
end

section
/-!
PROOFS, the register file family: a Word read of the register block answers its register (O18).
-/

namespace Sys2Proof.Machine

/-- In a well-formed table the block's addresses do not wrap around (R51). -/
theorem blockAddress_toNat {c : Config} {off : Nat} (hw : c.windows.wf = true) (inside : off < 16) :
    (blockAddress c off).toNat = c.windows.cfgBase + off := by
  obtain ⟨_, _, _, _, _, _, _, _, _, _, _, top, _⟩ := WindowTable.facts _ hw
  rw [blockAddress, BitVec.toNat_ofNat, Nat.mod_eq_of_lt (by omega)]

/-- The block's base is aligned, so an offset that is a multiple of 4 gives an aligned address (R51, R110). -/
theorem blockAddress_word_aligned {c : Config} {off : Nat} (hw : c.windows.wf = true) (inside : off < 16)
    (aligned : off % 4 = 0) : misaligned .word (blockAddress c off) = false := by
  obtain ⟨_, _, _, _, _, _, _, _, _, _, _, _, base_aligned⟩ := WindowTable.facts _ hw
  rw [misaligned_word_iff, blockAddress_toNat hw inside]
  omega

/-- A Word read of the register block answers the register its offset selects, and changes nothing (R84, R111, R161). -/
theorem busRead_block (s : State) (off : Nat) (hw : s.config.windows.wf = true) (inside : off < 16)
    (aligned : off % 4 = 0) : busRead .word (blockAddress s.config off) s = .ok (.word (regRead off s), s) :=
  busRead_mapped .word _ s .cfg off (decodeAddress_block _ hw _ off inside (blockAddress_toNat hw inside))
    (blockAddress_word_aligned hw inside aligned)

/-- Settles O18: each of the four offsets reads its register off the bus; DMA answers that word, and the idle controller
passes it on with the charge of a read. -/
theorem registerBlockReads : Obligations.RegisterBlockReads := by
  intro s hrun hw c
  have status := busRead_block s 0x0 hw (by decide) (by decide)
  have data0 := busRead_block s 0x4 hw (by decide) (by decide)
  have data1 := busRead_block s 0x8 hw (by decide) (by decide)
  have version := busRead_block s 0xC hw (by decide) (by decide)
  exact ⟨exec_dmaRw_of_busRead hrun status, exec_dmaRw_of_busRead hrun data0, exec_dmaRw_of_busRead hrun data1,
    exec_dmaRw_of_busRead hrun version, fun idle =>
    ⟨exec_cpuRw_of_idle hrun idle status, exec_cpuRw_of_idle hrun idle data0, exec_cpuRw_of_idle hrun idle data1,
      exec_cpuRw_of_idle hrun idle version⟩⟩

end Sys2Proof.Machine
end

section
/-!
PROOFS, the command engine family: the queries and the small commands (O28, O30, O37, O38), the transmits (O32 to O35, O39), the
receives (O36), the bracketing flags (O54) and the round trip (O60). Each rule has one lemma per outcome, and a command is its
rule run on the state that holds the command word in `status`.
-/

namespace Sys2Proof.Machine

/-! The queries, the configuration update and the unrecognized command (R181, R182, R189 to R191). -/

/-- Settles O28: each query answers the flag it reads. -/
theorem flagQueriesAnswer : Obligations.FlagQueriesAnswer := by
  intro s hi hrun
  exact ⟨exec_ok (.txReady hi) s _ hrun trivial (issue_of_ok _ cmdTxReady s _ rfl),
    exec_ok (.rxBusy hi) s _ hrun trivial (issue_of_ok _ cmdRxBusy s _ rfl)⟩

/-- Settles O30: the first query leaves `receiveReady` false and the cache 0, so the second answers an empty ready word and
leaves the rest as it finds it. -/
theorem eventIsDeliveredOnce : Obligations.EventIsDeliveredOnce := by
  intro s t hi lo idle first running
  obtain ⟨hrun, _⟩ := exec_next _ s t first
  cases (receiveReadyQueryAnswers s hi hrun).symm.trans first
  rw [receiveReadyQueryAnswers _ lo running]
  simp [idle]

theorem cmdConfig_of_known {s : State} (known : s.data0 = s.config.optSdramWritable) :
    cmdConfig s = .ok { s with sdramWritable := s.data1 != 0#32 } :=
  if_pos known

theorem cmdConfig_of_unknown {s : State} (unknown : s.data0 ≠ s.config.optSdramWritable) : cmdConfig s = .ok s :=
  if_neg unknown

/-- Settles O37: the identifier is known or not. -/
theorem configurationUpdate : Obligations.ConfigurationUpdate := by
  intro s hi hrun
  let u : State := { s with status := commandWord hi s.config.commands.config }
  have gate : (s.data1 != 0#32) = decide (s.data1 ≠ 0#32) := by simp [bne, Bool.beq_eq_decide_eq]
  refine ⟨fun known => ?_, fun unknown => ?_⟩
  · rw [← gate]
    exact exec_ok (.config hi) s _ hrun trivial (issue_of_ok _ cmdConfig s _ (cmdConfig_of_known (s := u) known))
  · exact exec_ok (.config hi) s _ hrun trivial (issue_of_ok _ cmdConfig s _ (cmdConfig_of_unknown (s := u) unknown))

/-- Settles O38: the command's one write comes after its word was stored. -/
theorem unrecognizedClearsStatusOnly : Obligations.UnrecognizedClearsStatusOnly := by
  intro s v hrun
  exact exec_ok (.unrecognized v) s _ hrun trivial (issue_of_ok v cmdUnrecognized s _ rfl)

/-! The end of a transmit (R184). -/

/-- The ERR mask is the one bit 28 (R26). -/
theorem getLsbD_setErr (v : Word) (i : Nat) : (setErr v).getLsbD i = (i == 28 || v.getLsbD i) := by
  have mask : 1#32 <<< errBit = BitVec.twoPow 32 28 := rfl
  rw [setErr, mask, BitVec.getLsbD_or, BitVec.getLsbD_twoPow, Bool.or_comm]
  simp [eq_comm, Bool.beq_eq_decide_eq]

/-- Settles O39: success and failure each write two fields, and on failure the mask touches no bit but ERR. -/
theorem transmitFinishReportsTheOutcome : Obligations.TransmitFinishReportsTheOutcome :=
  fun s => ⟨rfl, rfl, fun i _ => getLsbD_setErr s.status i⟩

@[simp] theorem transmitFinish_staging (ok : Bool) (s : State) : (transmitFinish ok s).staging = s.staging := by
  cases ok <;> rfl

@[simp] theorem transmitFinish_data0 (ok : Bool) (s : State) : (transmitFinish ok s).data0 = s.data0 := by
  cases ok <;> rfl

@[simp] theorem transmitFinish_data1 (ok : Bool) (s : State) : (transmitFinish ok s).data1 = s.data1 := by
  cases ok <;> rfl

/-! The state a transmit makes its request from. -/

/-- The command word stored, the `n` bytes of the store from `off` over the front of staging, and `transmitReady` false (R162,
R185, R186). -/
def transmitting (word : Word) (off n : Nat) (s : State) : State :=
  { s with status := word, staging := s.rom.readBytes off n ++ s.staging.drop n, transmitReady := false }

/-- As many bytes are copied as were read (R32). -/
theorem stageTransmit_readBytes (word : Word) (off n : Nat) (s : State) :
    stageTransmit (s.rom.readBytes off n) { s with status := word } = transmitting word off n s := by
  simp only [stageTransmit, overlay, transmitting, Memory.length_readBytes]

/-! The generic transmit (R185). -/

theorem genericRequest_readBytes_none {m : Memory} {off n : Nat} {s : State}
    (no_header : n = 0 ∨ m.read off ∉ s.config.headers.all) : genericRequest (m.readBytes off n) s = (true, s) := by
  cases n with
  | zero => rfl
  | succ n =>
    have unknown := headerOf_none _ _ (no_header.resolve_left (Nat.succ_ne_zero n))
    simp only [Memory.readBytes, genericRequest, unknown]

theorem genericRequest_readBytes_some {m : Memory} {off n : Nat} {s : State} {h : HeaderType}
    (known : headerOf s.config.headers (m.read off) = some h) :
    genericRequest (m.readBytes off (n + 1)) s = netDispatch h (m.readBytes (off + 1) n) s := by
  simp only [Memory.readBytes, genericRequest, known]

/-- A generic transmit in range finishes with the answer of its request. -/
theorem exec_txData_of_request {s : State} {n : Nat} {r : Bool × State} (hi : BitVec 24) (hrun : s.fault = none)
    (length : s.data0.toNat = n) (present : s.config.romPresent = true) (fits : n ≤ 512)
    (inside : s.data1.toNat + n ≤ s.config.romSize)
    (request : genericRequest (s.rom.readBytes s.data1.toNat n)
      (transmitting (hi ++ s.config.commands.txData) s.data1.toNat n s) = r) :
    exec (.txData hi) s = .next ((finishRequest r).respond .nothing) := by
  subst length
  let u : State := { s with status := hi ++ s.config.commands.txData }
  have range : u.genericInRange = true := (genericInRange_iff u).2 ⟨present, fits, inside⟩
  rw [← stageTransmit_readBytes] at request
  exact request ▸ exec_ok (.txData hi) s _ hrun trivial (issue_of_ok _ cmdTxData s _ (if_pos range))

/-- Settles O32: with no byte there is no header to look at, and an unknown one selects no request. -/
theorem genericTransmitWithoutRequest : Obligations.GenericTransmitWithoutRequest := by
  intro s hi hrun l a present fits inside no_header
  exact exec_txData_of_request hi hrun rfl present fits inside (genericRequest_readBytes_none no_header)

/-- Settles O33: the first byte is a header code, and distinct codes select its request. -/
theorem genericTransmitMakesTheRequest : Obligations.GenericTransmitMakesTheRequest := by
  intro s hi n h hrun a length present fits inside k b distinct selects
  have known : headerOf k b = some h := headerOf_of_nodup k distinct b h selects
  exact exec_txData_of_request hi hrun length present fits inside (genericRequest_readBytes_some known)

/-! The legacy transmit (R186): after the range check, the signature, the size and the type, in this order. -/

theorem sendLegacy_readBytes (h : HeaderType) (p : List Byte) (word : Word) (off n : Nat) (s : State) :
    sendLegacy h (s.rom.readBytes off n) p { s with status := word } =
      finishRequest (netDispatch h p (transmitting word off n s)) := by
  rw [sendLegacy, stageTransmit_readBytes]

section
variable {s : State} (range : s.legacyInRange 8 = true)
include range

theorem cmdTxDataLegacy_of_bad_signature (bad : s.rom.word s.legacyOffset ≠ s.config.legacySig) :
    cmdTxDataLegacy s = .error (.badSignature s.data1) := by
  simp only [cmdTxDataLegacy, range, bad, if_true, if_false]

variable (signed : s.rom.word s.legacyOffset = s.config.legacySig)
include signed

theorem cmdTxDataLegacy_of_oversize
    (oversize : s.transferLength < (headerSize (s.rom.word (s.legacyOffset + 4))).toNat) :
    cmdTxDataLegacy s = .error (.oversizePayload (headerSize (s.rom.word (s.legacyOffset + 4))) s.data0) := by
  simp only [cmdTxDataLegacy, range, signed, Nat.not_le_of_lt oversize, if_true, if_false]

variable (sized : (headerSize (s.rom.word (s.legacyOffset + 4))).toNat ≤ s.transferLength)
include sized

theorem cmdTxDataLegacy_of_unknown
    (unknown : headerOf s.config.headers (headerTypeByte (s.rom.word (s.legacyOffset + 4))) = none) :
    cmdTxDataLegacy s = .error (.unknownHeader (headerTypeByte (s.rom.word (s.legacyOffset + 4)))) := by
  simp only [cmdTxDataLegacy, range, signed, sized, unknown, if_true]

theorem cmdTxDataLegacy_of_known {h : HeaderType}
    (known : headerOf s.config.headers (headerTypeByte (s.rom.word (s.legacyOffset + 4))) = some h) :
    cmdTxDataLegacy s = .ok (sendLegacy h (s.rom.readBytes (s.legacyOffset + 8) s.transferLength)
      (s.rom.readBytes (s.legacyOffset + 8) (headerSize (s.rom.word (s.legacyOffset + 4))).toNat) s) := by
  simp only [cmdTxDataLegacy, range, signed, sized, known, if_true, Memory.take_readBytes]

end

/-- Settles O34: each check faults with the ones before it passed. -/
theorem legacyTransmitChecksInOrder : Obligations.LegacyTransmitChecksInOrder := by
  intro s hi hrun l a o sig t size present above fits inside
  let u : State := { s with status := commandWord hi s.config.commands.txDataLegacy }
  have range : u.legacyInRange 8 = true := (legacyInRange_iff u 8).2 ⟨present, above, fits, inside⟩
  obtain ⟨type_byte, declared⟩ : headerTypeByte (s.rom.word (o + 4)) = t ∧ headerSize (s.rom.word (o + 4)) = size :=
    headerWord_fields s.rom (o + 4)
  have faults (k : FaultKind) (error : cmdTxDataLegacy u = .error k) :
      exec (.txDataLegacy hi) s = .next { s with fault := some k } :=
    exec_error (.txDataLegacy hi) s k hrun (issue_of_error _ cmdTxDataLegacy s k error)
  refine ⟨fun bad => ?_, fun signed oversize => ?_, fun signed sized unknown => ?_⟩
  · exact faults _ (cmdTxDataLegacy_of_bad_signature range bad)
  · rw [← declared] at oversize ⊢
    exact faults _ (cmdTxDataLegacy_of_oversize range signed oversize)
  · rw [← declared] at sized
    rw [← type_byte] at unknown ⊢
    exact faults _ (cmdTxDataLegacy_of_unknown range signed sized (headerOf_none _ _ unknown))

/-- Settles O35: with every check passed, the copy, the request and the finish. -/
theorem legacyTransmitMakesTheRequest : Obligations.LegacyTransmitMakesTheRequest := by
  intro s hi h hrun l a o size present above fits inside signed sized k b distinct selects
  let u : State := { s with status := commandWord hi s.config.commands.txDataLegacy }
  have range : u.legacyInRange 8 = true := (legacyInRange_iff u 8).2 ⟨present, above, fits, inside⟩
  obtain ⟨type_byte, declared⟩ : headerTypeByte (s.rom.word (o + 4)) = b ∧ headerSize (s.rom.word (o + 4)) = size :=
    headerWord_fields s.rom (o + 4)
  have known : headerOf k (headerTypeByte (s.rom.word (o + 4))) = some h :=
    type_byte ▸ headerOf_of_nodup k distinct b h selects
  rw [← declared] at sized ⊢
  have sent : cmdTxDataLegacy u = .ok (finishRequest _) :=
    (cmdTxDataLegacy_of_known range signed sized known).trans
      (congrArg Except.ok (sendLegacy_readBytes h _ u.status (o + 8) l s))
  exact exec_ok (.txDataLegacy hi) s _ hrun trivial (issue_of_ok _ cmdTxDataLegacy s _ sent)

/-! The receives (R187, R188). -/

theorem cmdRxData_of_inRange {s : State} (range : s.genericInRange = true) :
    cmdRxData s = .ok (receiveTo s.transferAddress s) :=
  if_pos range

theorem cmdRxDataLegacy_of_inRange {s : State} (range : s.legacyInRange 0 = true) :
    cmdRxDataLegacy s = .ok (receiveTo s.legacyOffset s) :=
  if_pos range

/-- Inside the received run the store reads the staging bytes. -/
theorem read_receiveTo_inside {s : State} (off : Nat) {i : Nat} (hrom : s.rom.wf = true)
    (staged : s.transferLength ≤ s.staging.length) (within : i < s.transferLength) :
    s.staging[i]? = some ((receiveTo off s).rom.read (off + i)) := by
  have taken : i < (stagingTake s.transferLength s.staging).length := by
    rw [stagingTake, List.length_take_of_le staged]
    exact within
  rw [receiveTo_rom, Memory.read_writeBytes_inside s.rom off i _ hrom taken]
  simp only [stagingTake, List.getElem_take]
  exact List.getElem?_eq_getElem (within.trans_le staged)

/-- Outside the received run the store reads as before. -/
theorem read_receiveTo_outside {s : State} (off : Nat) {x : Nat} (outside : x < off ∨ off + s.transferLength ≤ x) :
    (receiveTo off s).rom.read x = s.rom.read x := by
  have short : (stagingTake s.transferLength s.staging).length ≤ s.transferLength := List.length_take_le _ _
  rw [receiveTo_rom, Memory.read_writeBytes_outside s.rom off x _ (by omega)]

/-- Settles O36: both variants copy the staging buffer, each to its offset. -/
theorem receiveCopiesTheStagingBuffer : Obligations.ReceiveCopiesTheStagingBuffer := by
  intro s hi hrun hrom size present l a o fits
  have staged : l ≤ s.staging.length := size ▸ fits
  refine ⟨fun inside => ?_, fun above inside => ?_⟩
  · let u : State := { s with status := commandWord hi s.config.commands.rxData }
    have received := cmdRxData_of_inRange (s := u) ((genericInRange_iff u).2 ⟨present, fits, inside⟩)
    exact ⟨_, exec_ok (.rxData hi) s _ hrun trivial (issue_of_ok _ cmdRxData s _ received),
      fun i within => read_receiveTo_inside (s := u) a hrom staged within,
      fun x outside => read_receiveTo_outside (s := u) a outside, rfl⟩
  · let u : State := { s with status := commandWord hi s.config.commands.rxDataLegacy }
    have received := cmdRxDataLegacy_of_inRange (s := u) ((legacyInRange_iff u 0).2 ⟨present, above, fits, inside⟩)
    exact ⟨_, exec_ok (.rxDataLegacy hi) s _ hrun trivial (issue_of_ok _ cmdRxDataLegacy s _ received),
      fun i within => read_receiveTo_inside (s := u) o hrom staged within,
      fun x outside => read_receiveTo_outside (s := u) o outside, rfl⟩

/-! The bracketing flags (R192, R193). -/

/-- R193: no instruction leaves `receiveBusy` true where it was false: RESET clears it, every other one keeps it by `Kept`, and
a fault changes nothing else. -/
theorem exec_receiveBusy (i : Instr) (s t : State) (h : exec i s = .next t) (idle : s.receiveBusy = false) :
    t.receiveBusy = false := by
  obtain ⟨_, enabled, ha | ⟨k, _, rfl⟩⟩ := exec_next i s t h
  · by_cases hi : i = .reset
    · subst hi
      cases ha
      rfl
    · exact (action_kept i s t hi enabled ha).receive_idle idle
  · exact idle

theorem getLsbD_readyWord_idle (ready : Bool) :
    (BitVec.ofBool false ++ 0#30 ++ BitVec.ofBool ready).getLsbD 31 = false := by
  cases ready <;> decide

/-- Settles O54: both flags are kept, and the three queries answer them. -/
theorem bracketingFlagsAreNeverSeen : Obligations.BracketingFlagsAreNeverSeen := by
  refine ⟨⟨rfl, rfl⟩, fun s hi hrun ready idle => ?_⟩
  obtain ⟨txReady, rxBusy⟩ := flagQueriesAnswer s hi hrun
  refine ⟨fun i t h => ?_, ⟨_, txReady, if_pos ready⟩, ⟨_, rxBusy, if_neg (ne_true_of_eq_false idle)⟩, ?_⟩
  · exact ⟨exec_transmitReady i s t h ready, exec_receiveBusy i s t h idle⟩
  · refine ⟨_, receiveReadyQueryAnswers s hi hrun, ?_⟩
    rw [idle]
    exact getLsbD_readyWord_idle s.receiveReady

/-! The round trip (R194): what a transmit leaves of the bytes it staged, and where a receive puts them. -/

/-- An instruction that answers a running state ran from one, and went through. -/
theorem exec_next_running {i : Instr} {s t : State} (h : exec i s = .next t) (running : t.fault = none) :
    s.fault = none ∧ actionOf i s = .ok t := by
  obtain ⟨hrun, _, went | ⟨k, _, rfl⟩⟩ := exec_next i s t h
  · exact ⟨hrun, went⟩
  · exact absurd running (by simp)

/-- Only a connect request writes the staging buffer (R212 to R215). -/
theorem netDispatch_staging {h : HeaderType} (p : List Byte) (s : State) (other : h ≠ .connect) :
    (netDispatch h p s).2.staging = s.staging := by
  rcases netDispatch_cases h p s with ⟨connect, _⟩ | ⟨connect, _⟩ | ⟨_, _, e⟩ | ⟨_, _, e⟩ | ⟨_, _, _, e⟩ | ⟨_, _, e⟩ | ⟨_, e⟩
  · exact absurd connect other
  · exact absurd connect other
  all_goals rw [e]

/-- No request writes the data registers. -/
theorem netDispatch_data (h : HeaderType) (p : List Byte) (s : State) :
    (netDispatch h p s).2.data0 = s.data0 ∧ (netDispatch h p s).2.data1 = s.data1 := by
  rcases netDispatch_cases h p s with ⟨_, _, e⟩ | ⟨_, _, e⟩ | ⟨_, _, e⟩ | ⟨_, _, e⟩ | ⟨_, _, _, e⟩ | ⟨_, _, e⟩ | ⟨_, e⟩ <;>
    rw [e] <;> exact ⟨rfl, rfl⟩

/-- Only the connect code selects the connect request (R87). -/
theorem headerOf_ne_connect {c : HeaderCodes} {t : Byte} (other : t ≠ c.connect) : headerOf c t ≠ some .connect := by
  rw [headerOf, if_neg other]
  split_ifs <;> simp

theorem genericRequest_data (b : List Byte) (s : State) :
    (genericRequest b s).2.data0 = s.data0 ∧ (genericRequest b s).2.data1 = s.data1 := by
  rcases genericRequest_cases b s with e | ⟨_, p, h, _, _, e⟩ <;> rw [e]
  · exact ⟨rfl, rfl⟩
  · exact netDispatch_data h p s

/-- A transmit whose first byte is not the connect code leaves the staging buffer as the copy made it. -/
theorem genericRequest_readBytes_staging {m : Memory} {off : Nat} (n : Nat) {s : State}
    (other : m.read off ≠ s.config.headers.connect) :
    (genericRequest (m.readBytes off n) s).2.staging = s.staging := by
  rcases genericRequest_cases (m.readBytes off n) s with e | ⟨t, p, h, bytes, known, e⟩ <;> rw [e]
  cases n with
  | zero => cases bytes
  | succ n =>
    cases bytes
    exact netDispatch_staging _ s fun connect => headerOf_ne_connect other (connect ▸ known)

/-- A generic transmit without a fault, of a first byte other than the connect code, leaves the transmitted bytes at the front
of staging, and its arguments. -/
theorem exec_txData_staged {s t : State} {hi : BitVec 24} (h : exec (.txData hi) s = .next t) (running : t.fault = none)
    (other : s.rom.read s.data1.toNat ≠ s.config.headers.connect) :
    t.staging.take s.data0.toNat = s.rom.readBytes s.data1.toNat s.data0.toNat ∧
      t.data0 = s.data0 ∧ t.data1 = s.data1 := by
  obtain ⟨_, went⟩ := exec_next_running h running
  obtain ⟨u, command, rfl⟩ := issue_ok _ _ s t went
  obtain ⟨_, rfl⟩ := cmdTxData_ok _ u command
  obtain ⟨length, address⟩ := genericRequest_data (s.rom.readBytes s.data1.toNat s.data0.toNat)
    (stageTransmit (s.rom.readBytes s.data1.toNat s.data0.toNat)
      { s with status := commandWord hi s.config.commands.txData })
  refine ⟨?_, (transmitFinish_data0 _ _).trans length, (transmitFinish_data1 _ _).trans address⟩
  have staged := take_overlay (s.rom.readBytes s.data1.toNat s.data0.toNat) s.staging
  rw [Memory.length_readBytes] at staged
  rw [← staged]
  exact congrArg (List.take _) ((transmitFinish_staging _ _).trans (genericRequest_readBytes_staging _ other))

/-- A generic receive without a fault writes the front of staging into the store (R187). -/
theorem exec_rxData_rom {u v : State} {lo : BitVec 24} (h : exec (.rxData lo) u = .next v) (running : v.fault = none) :
    v.rom = u.rom.writeBytes u.data1.toNat (u.staging.take u.data0.toNat) := by
  obtain ⟨_, went⟩ := exec_next_running h running
  obtain ⟨w, command, rfl⟩ := issue_ok _ _ u v went
  simp only [writeCommand, cmdRxData] at command
  split at command <;> cases command
  rfl

/-- Settles O60: the receive writes the transmitted bytes, which were read from where it writes them. -/
theorem transmitReceiveRoundTrip : Obligations.TransmitReceiveRoundTrip := by
  intro s t u v hi lo transmit running other kept length address hrom receive received i within
  obtain ⟨staged, data0, data1⟩ := exec_txData_staged transmit running other
  have bytes : u.staging.take u.data0.toNat = s.rom.readBytes s.data1.toNat s.data0.toNat := by
    rw [length, data0, kept, staged]
  have inside : i < (s.rom.readBytes s.data1.toNat s.data0.toNat).length := by simpa using within
  rw [exec_rxData_rom receive received, bytes, address, data1,
    Memory.read_writeBytes_inside u.rom _ i _ hrom inside, Memory.getElem_readBytes]

end Sys2Proof.Machine
end

section
/-!
PROOFS, the network bridge family: the requests, each by its draw (O40, O41), the inbound step by what enables it (O42), a
generic transmit that asks for a connection or a server (O43), and the sequence of three requests (O44).
-/

namespace Sys2Proof.Machine

/-! The requests (R211 to R215). -/

/-- A connect request: teardown, then the event of the connection if the draw is true (R211, R212). -/
theorem netDispatch_connect (p : List Byte) (s : State) :
    netDispatch .connect p s =
      (Config.drawBool s.draws,
        if Config.drawBool s.draws then
          postEvent (hostOf p) { s with draws := s.draws + 1, endpoint := some (.client (hostOf p)) }
        else { s with draws := s.draws + 1, endpoint := none }) := by
  cases ok : Config.drawBool s.draws <;> simp [netDispatch, bridgeConnect, drawOk, teardown, ok]

/-- A start-server request: teardown, then the endpoint if the draw is true (R211, R213). -/
theorem netDispatch_server (p : List Byte) (s : State) :
    netDispatch .server p s =
      (Config.drawBool s.draws,
        { s with
          draws := s.draws + 1
          endpoint := if Config.drawBool s.draws then some (.server p) else none }) := by
  cases ok : Config.drawBool s.draws <;> simp [netDispatch, bridgeServe, drawOk, teardown, ok]

/-- A send is logged with the endpoint it goes through, if there is one (R214). -/
theorem netDispatch_send (p : List Byte) (s : State) :
    netDispatch .send p s =
      (true, { s with outLog := s.outLog ++ (match s.endpoint with | none => [] | some e => [⟨e, p⟩]) }) := by
  obtain ⟨⟩ := s
  cases ‹Option Endpoint› with
  | none => simp only [netDispatch, bridgeSend, List.append_nil]
  | some e => rfl

/-- Settles O40: the payload's host is what stands before its first ':'. -/
theorem connectRequest : Obligations.ConnectRequest := by
  intro s p h q host payload
  rw [netDispatch_connect, hostOf_eq p h q host payload]
  rfl

/-- Settles O41: one rule per request. -/
theorem serveSendAndTextRequests : Obligations.ServeSendAndTextRequests :=
  fun s p => ⟨netDispatch_server p s, netDispatch_send p s, rfl⟩

/-! The inbound step (R216, R217). -/

section
variable {s : State} {p : List Byte} (hrun : s.fault = none)
include hrun

theorem exec_inbound_of_endpoint (connected : s.endpoint ≠ none) (short : p.length ≤ 512) :
    exec (.inbound p) s = .next ((postEvent p s).respond .nothing) :=
  exec_ok (.inbound p) s _ hrun ⟨short, connected⟩ rfl

theorem exec_inbound_of_no_endpoint (unconnected : s.endpoint = none) (short : p.length ≤ 512) :
    exec (.inbound p) s = .refused .inboundNotEnabled :=
  (whenRunning_running s _ hrun).trans ((if_neg (Nat.not_lt_of_le short)).trans (by rw [unconnected]))

theorem exec_inbound_of_long (long : 512 < p.length) :
    exec (.inbound p) s = .refused (.inboundTooLong p.length) :=
  (whenRunning_running s _ hrun).trans (if_pos long)

end

/-- Settles O42: the step is enabled, or refused for the endpoint, or for the length. -/
theorem inboundPostsTheEvent : Obligations.InboundPostsTheEvent := fun _ _ hrun =>
  ⟨fun e connected => exec_inbound_of_endpoint hrun (connected ▸ Option.some_ne_none e),
    exec_inbound_of_no_endpoint hrun, exec_inbound_of_long hrun⟩

/-! The two requests that open an endpoint, and the generic transmit of one (R184, R185, R222, R246). -/

section
variable {h : HeaderType} (p : List Byte) {s : State} (opens : h = .connect ∨ h = .server)
include opens

/-- A failed connect or start-server only ends the previous endpoint. -/
theorem netDispatch_of_failed (failed : Config.drawBool s.draws = false) :
    netDispatch h p s = (false, { s with draws := s.draws + 1, endpoint := none }) := by
  rcases opens with rfl | rfl
  · rw [netDispatch_connect, failed]; rfl
  · rw [netDispatch_server, failed]; rfl

/-- A connect or start-server that succeeds leaves its endpoint. -/
theorem netDispatch_of_opened (opened : Config.drawBool s.draws = true) :
    ∃ t, netDispatch h p s = (true, t) ∧ t.endpoint ≠ none ∧ t.fault = s.fault := by
  rcases opens with rfl | rfl
  · rw [netDispatch_connect, opened]; exact ⟨_, rfl, Option.some_ne_none _, rfl⟩
  · rw [netDispatch_server, opened]; exact ⟨_, rfl, Option.some_ne_none _, rfl⟩

end

/-- The connect and the server code each select a request that opens an endpoint, though the codes be equal (R87). -/
theorem headerOf_opens {c : HeaderCodes} {t : Byte} (code : t = c.connect ∨ t = c.server) :
    ∃ h, headerOf c t = some h ∧ (h = .connect ∨ h = .server) := by
  by_cases connect : t = c.connect
  · exact ⟨.connect, if_pos connect, .inl rfl⟩
  · exact ⟨.server, (if_neg connect).trans (if_pos (code.resolve_left connect)), .inr rfl⟩

/-- Settles O43: the transmit finishes with the answer of the request its first byte selects. -/
theorem failedRequestLeavesNoEndpoint : Obligations.FailedRequestLeavesNoEndpoint := by
  intro s hi hrun a pos fits inside present code
  obtain ⟨n, length⟩ := Nat.exists_eq_add_of_le' pos
  obtain ⟨h, known, opens⟩ := headerOf_opens code
  rw [length] at fits inside
  let u := transmitting (hi ++ s.config.commands.txData) a (n + 1) s
  have transmit := exec_txData_of_request hi hrun length present fits inside (genericRequest_readBytes_some known)
  cases draw : Config.drawBool s.draws with
  | false =>
    have failed := netDispatch_of_failed (s.rom.readBytes (a + 1) n) opens (s := u) draw
    rw [failed] at transmit
    exact ⟨_, transmit, hrun, rfl,
      fun _ => ⟨rfl, errOf_setErr _, rfl, fun _ => exec_inbound_of_no_endpoint hrun rfl⟩, nofun⟩
  | true =>
    obtain ⟨t, opened, endpoint, running⟩ := netDispatch_of_opened (s.rom.readBytes (a + 1) n) opens (s := u) draw
    rw [opened] at transmit
    exact ⟨_, transmit, running.trans hrun, rfl, nofun, fun _ => ⟨endpoint, rfl⟩⟩

/-! A start-server, a send and a connect in this order (R221). -/

/-- After a start-server, a send is logged for the server if it was bound. -/
theorem netDispatch_server_send_outLog (port msg : List Byte) (s : State) :
    (netDispatch .send msg (netDispatch .server port s).2).2.outLog =
      s.outLog ++ (if Config.drawBool s.draws then [⟨.server port, msg⟩] else []) := by
  rw [netDispatch_send, netDispatch_server]
  cases Config.drawBool s.draws <;> rfl

/-- A start-server takes one draw, and a send none. -/
theorem netDispatch_server_send_draws (port msg : List Byte) (s : State) :
    (netDispatch .send msg (netDispatch .server port s).2).2.draws = s.draws + 1 := by
  rw [netDispatch_send, netDispatch_server]

/-- Settles O44: each request starts from what the one before it left, so the connect takes the second draw. -/
theorem serverSendConnectSequence : Obligations.ServerSendConnectSequence := by
  intro s port msg h q host short bound connected r1 r2 r3
  have server : r1 = _ := netDispatch_server port s
  have send : r2 = _ := netDispatch_send msg r1.2
  have connect : r3 = _ := netDispatch_connect (h ++ 0x3A#8 :: q) r2.2
  have draws : r2.2.draws = s.draws + 1 := netDispatch_server_send_draws port msg s
  rw [hostOf_eq _ h q host (.inr rfl), draws] at connect
  refine ⟨congrArg Prod.fst server, congrArg (·.2.endpoint) server, congrArg Prod.fst send,
    netDispatch_server_send_outLog port msg s, congrArg Prod.fst connect,
    (congrArg (·.2.endpoint) connect).trans (apply_ite State.endpoint _ _ _), fun ok => ?_⟩
  rw [if_pos ok] at connect
  rw [connect]
  exact ⟨rfl, toNat_length h short, take_overlay h _⟩

end Sys2Proof.Machine
end

section
/-!
PROOFS, the exceptions family: when an access faults (O12, O13) and when a transfer does (O31), that a fault is the only change
of its step (O46), which instructions raise a ProtocolFatal (O48), and that a fault is the last of a run (O47).
-/

namespace Sys2Proof.Machine

/-! Accesses (R244, R245). -/

/-- Settles O12: the bus checks the alignment of a mapped target first, and a busy CPU access does not reach the bus. -/
theorem misalignedMappedAccessFaults : Obligations.MisalignedMappedAccessFaults := by
  intro s a v h dev off hrun mapped
  refine ⟨fun odd_word => ?_, fun odd_half => ?_, fun busy => ?_⟩
  · have read := busRead_misaligned .word a s dev off mapped (decide_eq_true odd_word)
    have write := busWrite_misaligned a (.word v) s dev off mapped (decide_eq_true odd_word)
    exact ⟨exec_error _ s _ hrun (dmaRead_of_error .word a s _ read),
      exec_error _ s _ hrun (dmaWrite_of_error a (.word v) s _ write), fun idle =>
      ⟨exec_error _ s _ hrun (readWord_idle_error a s _ idle read),
        exec_error _ s _ hrun (writeWord_idle_error a v s _ idle write)⟩⟩
  · have read := busRead_misaligned .half a s dev off mapped (decide_eq_true odd_half)
    have write := busWrite_misaligned a (.half h) s dev off mapped (decide_eq_true odd_half)
    exact ⟨exec_error _ s _ hrun (dmaRead_of_error .half a s _ read),
      exec_error _ s _ hrun (dmaWrite_of_error a (.half h) s _ write)⟩
  · have read_running : (drain s).fault = none := (drain_kept s).fault.trans hrun
    exact ⟨_, _, exec_cpuRw_of_busy hrun a busy, read_running, exec_cpuWw_of_busy hrun a v busy, hrun⟩

section
variable {s : State} {a : Word} {off : Nat} (mapped : decodeAddress s.config a = .mapped .cfg off)
  (aligned : a.toNat % 2 = 0)
include mapped aligned

theorem busRead_block_half : busRead .half a s = .error (.unsupportedWidth a) :=
  busRead_mapped .half a s .cfg off mapped ((misaligned_half_iff a).2 aligned)

theorem busWrite_block_half (h : Half) : busWrite a (.half h) s = .error (.unsupportedWidth a) :=
  busWrite_mapped a (.half h) s .cfg off mapped ((misaligned_half_iff a).2 aligned)

end

/-- Settles O13: the block is a mapped target, so a misaligned Word is O12's; a Half passes that check and is refused by the
block. -/
theorem registerBlockTakesAlignedWordsOnly : Obligations.RegisterBlockTakesAlignedWordsOnly := by
  intro s a v h hrun hw from_base below
  have mapped : decodeAddress s.config a = .mapped .cfg (a.toNat - s.config.windows.cfgBase) :=
    decodeAddress_in_window hw .cfg rfl from_base below
  refine ⟨fun aligned => ?_, fun odd_word => ?_⟩
  · exact ⟨exec_error _ s _ hrun (dmaRead_of_error .half a s _ (busRead_block_half mapped aligned)),
      exec_error _ s _ hrun (dmaWrite_of_error a (.half h) s _ (busWrite_block_half mapped aligned h))⟩
  · obtain ⟨word_faults, _⟩ := misalignedMappedAccessFaults s a v h .cfg _ hrun mapped
    obtain ⟨read, write, _⟩ := word_faults odd_word
    exact ⟨read, write⟩

/-! Transfers out of range (R183, R243). -/

/-- A generic transfer is out of range in each of R243's cases. -/
theorem not_genericInRange {s : State}
    (out : s.config.romPresent = false ∨ 512 < s.data0.toNat ∨ s.config.romSize < s.data1.toNat + s.data0.toNat) :
    ¬ s.genericInRange = true := by
  rw [genericInRange_iff]
  rintro ⟨present, fits, inside⟩
  rcases out with absent | long | beyond
  · exact absurd present (ne_true_of_eq_false absent)
  · exact absurd fits (Nat.not_le_of_lt long)
  · exact absurd inside (Nat.not_le_of_lt beyond)

/-- A legacy transfer is out of range in each of R243's cases. -/
theorem not_legacyInRange {s : State} {extra : Nat}
    (out : s.config.romPresent = false ∨ s.data1.toNat < s.config.windows.cartRom ∨ 512 < s.data0.toNat ∨
      s.config.romSize < s.legacyOffset + extra + s.data0.toNat) : ¬ s.legacyInRange extra = true := by
  rw [legacyInRange_iff]
  rintro ⟨present, above, fits, inside⟩
  rcases out with absent | below | long | beyond
  · exact absurd present (ne_true_of_eq_false absent)
  · exact absurd above (Nat.not_le_of_lt below)
  · exact absurd fits (Nat.not_le_of_lt long)
  · exact absurd inside (Nat.not_le_of_lt beyond)

/-- Settles O31: each of the four commands checks its range first, and the check reads none of what the command word changes. -/
theorem transferRangeFaults : Obligations.TransferRangeFaults := by
  intro s hi hrun l a low f
  let k := s.config.commands
  refine ⟨fun out => ⟨?_, ?_⟩, fun out => ?_, fun out => ?_⟩
  · have range := not_genericInRange (s := { s with status := commandWord hi k.txData }) out
    exact exec_error (.txData hi) s _ hrun (issue_of_error _ cmdTxData s _ (if_neg range))
  · have range := not_genericInRange (s := { s with status := commandWord hi k.rxData }) out
    exact exec_error (.rxData hi) s _ hrun (issue_of_error _ cmdRxData s _ (if_neg range))
  · have range := not_legacyInRange (s := { s with status := commandWord hi k.txDataLegacy }) (extra := 8) out
    exact exec_error (.txDataLegacy hi) s _ hrun (issue_of_error _ cmdTxDataLegacy s _ (if_neg range))
  · have range := not_legacyInRange (s := { s with status := commandWord hi k.rxDataLegacy }) (extra := 0) out
    exact exec_error (.rxDataLegacy hi) s _ hrun (issue_of_error _ cmdRxDataLegacy s _ (if_neg range))

/-! The step that raises a fault (R240, R249). -/

/-- An instruction that goes through raises no fault: RESET clears the field, every other one keeps it. -/
theorem action_ok_running {i : Instr} {s t : State} (hrun : s.fault = none) (henabled : enabled i s)
    (ok : actionOf i s = .ok t) : t.fault = none := by
  by_cases reset : i = .reset
  · subst reset
    cases ok
    rfl
  · exact (action_kept i s t reset henabled ok).fault.trans hrun

/-- A next state with a fault is the one before it with the fault the instruction's action raised. -/
theorem exec_fault {i : Instr} {s t : State} {k : FaultKind} (step : exec i s = .next t) (fault : t.fault = some k) :
    actionOf i s = .error k ∧ t = s.raise k := by
  obtain ⟨hrun, henabled, ok | ⟨raised, error, rfl⟩⟩ := exec_next i s t step
  · rw [action_ok_running hrun henabled ok] at fault
    cases fault
  · cases fault
    exact ⟨error, rfl⟩

/-- Settles O46: a fault is raised on the state before the step. -/
theorem faultsArePrecise : Obligations.FaultsArePrecise := by
  intro i s t step faulted
  obtain ⟨k, fault⟩ := Option.ne_none_iff_exists'.1 faulted
  obtain ⟨_, raised⟩ := exec_fault step fault
  rw [fault]
  exact raised

/-! Which action raised a fault. -/

theorem dmaRead_error {w : Width} {a : Word} {s : State} {k : FaultKind} (h : dmaRead w a s = .error k) :
    busRead w a s = .error k := by
  unfold dmaRead at h
  split at h
  · cases h
  · next error => cases h; exact error

theorem dmaWrite_error {a : Word} {v : BusValue} {s : State} {k : FaultKind} (h : dmaWrite a v s = .error k) :
    busWrite a v s = .error k := by
  unfold dmaWrite at h
  split at h
  · cases h
  · next error => cases h; exact error

theorem readWord_error {a : Word} {s : State} {k : FaultKind} (h : readWord a s = .error k) :
    busRead .word a s = .error k := by
  unfold readWord at h
  split at h
  · cases h
  · split at h
    · cases h
    · next error => cases h; exact error

/-- A CPU-class write that faults was accepted, and its bus write faults on the state before it: the bus does not see the
controller (R142, R151). -/
theorem writeWord_error {a v : Word} {s : State} {k : FaultKind} (h : writeWord a v s = .error k) :
    s.busy = false ∧ busWrite a (.word v) s = .error k := by
  cases busy : s.busy with
  | true => rw [writeWord_busy a v s busy] at h; cases h
  | false =>
    refine ⟨rfl, ?_⟩
    cases write : busWrite a (.word v) s with
    | ok t => rw [writeWord_idle a v s t busy write] at h; cases h
    | error raised =>
      rw [writeWord_idle_error a v s raised busy write] at h
      cases h
      rfl

theorem issue_error {v : Word} {c : Action} {s : State} {k : FaultKind} (h : issue v c s = .error k) :
    writeCommand v c s = .error k := by
  unfold issue at h
  split at h
  · cases h
  · next error => cases h; exact error

/-! The ProtocolFatal faults (R242). -/

/-- A legacy transmit: the command itself, or an accepted write of a word that selects it. -/
def IsLegacyTransmit (i : Instr) (s : State) : Prop :=
  (∃ hi, i = .txDataLegacy hi) ∨
    ∃ v, s.WritesCommand i v ∧ commandOf s.config.commands (codeOf v) = .txDataLegacy

/-- A command other than the legacy transmit, presented by itself, raises no ProtocolFatal. -/
theorem issue_error_code {v : Word} {c : Command} {s : State} {k : FaultKind} (h : issue v (runCommand c) s = .error k)
    (other : c ≠ .txDataLegacy) : k.code > 3 :=
  (writeCommand_error v c s k (issue_error h)).resolve_right other

/-- An action that raises a ProtocolFatal is a legacy transmit's. -/
theorem action_error_code {i : Instr} {s : State} {k : FaultKind} (h : actionOf i s = .error k) :
    k.code > 3 ∨ IsLegacyTransmit i s := by
  cases i with
  | cpuRw a => exact .inl (busRead_error .word a s k (readWord_error h))
  | cpuWw a v =>
    obtain ⟨idle, error⟩ := writeWord_error h
    rcases busWrite_error a _ s k error with other | ⟨off, x, hd, ho, ha, hv, legacy⟩
    · exact .inl other
    · cases hv
      exact .inr (.inr ⟨v, ⟨a, off, hd, ho, ha, .inl ⟨rfl, idle⟩⟩, legacy⟩)
  | dmaRh a => exact .inl (busRead_error .half a s k (dmaRead_error h))
  | dmaRw a => exact .inl (busRead_error .word a s k (dmaRead_error h))
  | dmaWh a v =>
    rcases busWrite_error a _ s k (dmaWrite_error h) with other | ⟨_, _, _, _, _, hv, _⟩
    · exact .inl other
    · cases hv
  | dmaWw a v =>
    rcases busWrite_error a _ s k (dmaWrite_error h) with other | ⟨off, x, hd, ho, ha, hv, legacy⟩
    · exact .inl other
    · cases hv
      exact .inr (.inr ⟨v, ⟨a, off, hd, ho, ha, .inr rfl⟩, legacy⟩)
  | advance | forceFinish | isBusy | latchedValue | reset | inbound => cases h
  | txReady => exact .inl (issue_error_code (c := .txReady) h nofun)
  | rxReady => exact .inl (issue_error_code (c := .rxReady) h nofun)
  | txData => exact .inl (issue_error_code (c := .txData) h nofun)
  | txDataLegacy hi => exact .inr (.inl ⟨hi, rfl⟩)
  | rxData => exact .inl (issue_error_code (c := .rxData) h nofun)
  | rxDataLegacy => exact .inl (issue_error_code (c := .rxDataLegacy) h nofun)
  | rxBusy => exact .inl (issue_error_code (c := .rxBusy) h nofun)
  | config => exact .inl (issue_error_code (c := .config) h nofun)
  | unrecognized => exact .inl (issue_error_code (c := .unrecognized) h nofun)

/-- Settles O48: the fault is the one the action raised, and of codes 1 to 3 only a legacy transmit's action raises one. -/
theorem protocolFatalOnlyInTheLegacyTransmit : Obligations.ProtocolFatalOnlyInTheLegacyTransmit := by
  intro i s t k step fault protocol
  obtain ⟨error, _⟩ := exec_fault step fault
  exact (action_error_code error).resolve_left (Nat.not_lt_of_le protocol)

/-! After a fault (R240). -/

theorem step_halted (s : State) (k : FaultKind) (h : s.fault = some k) : step s = .fault (.halted k) :=
  whenRunning_halted s _ k h

/-- Settles O47: every instruction and the step itself run only while there is no fault. -/
theorem noStepAfterAFault : Obligations.NoStepAfterAFault := by
  intro s k halted
  exact ⟨fun i => exec_halted i s k halted, step_halted s k halted⟩

end Sys2Proof.Machine
end

section
/-!
PROOFS, the reset family: what RESET leaves (O45), and that the state right after reset meets the invariant (O51), which
every step then keeps (O52).
-/

namespace Sys2Proof.Machine

/-- RESET is enabled in every running state, and answers the system init of it (R260). -/
theorem exec_reset (s : State) (hrun : s.fault = none) : exec .reset s = .next (systemInit s) :=
  exec_ok .reset s (systemInit s) hrun trivial rfl

/-- Settles O45: RESET answers the system init of the state, and each field is read from it by its own law. -/
theorem resetRestoresEveryField : Obligations.ResetRestoresEveryField := by
  intro s hrun
  refine ⟨systemInit s, exec_reset s hrun, ?_⟩
  simp [reset_staging, stageN]

/-- The default parameters meet the constraints of R51, R85, R87 and R183 (entry 5). -/
theorem Config.wf_standard : Config.standard.wf = true := by decide

/-- Settles O51: nothing is in flight, the cache and the ROM store are empty, and the parameters are the default ones. -/
theorem resetMeetsTheInvariant : Obligations.ResetMeetsTheInvariant where
  config_wf := Config.wf_standard
  busy_iff := by simp [State.reset]
  pending_range := fun _ due => nomatch due
  transmit_ready := rfl
  receive_idle := rfl
  staging_size := length_reset_staging
  cache_empty := fun _ => rfl
  cache_bound := Nat.zero_le _
  rom_wf := rfl
  rom_below := rfl

end Sys2Proof.Machine
end
